-- ==== Sys2Proof/Word.lean ====
section
/-! DEFINITION. The two word types of the frame core: bytes of the buffer memory and 32-bit control registers. -/

namespace Sys2Proof

/-- One byte of the buffer memory BUF (10_state.md R20). -/
abbrev Byte := BitVec 8

/-- One control register: every register of the REG space is 32 bits wide (10_state.md R23). -/
abbrev Word := BitVec 32

end Sys2Proof
end

