-- ==== Sys2Proof/Syntax.lean ====
section
/-! DEFINITION. The command set: one constructor per row of spec/opcode_table.json. -/

namespace Sys2Proof

/-- The six commands of the opcode map (30_encoding.md R63).
A command word holds no register number and no immediate (30_encoding.md R62): operands come from ARG0 to ARG3 (R65), so no
constructor has a field. -/
inductive Instr where
  /-- No operation (40_command_common.md R86). -/
  | nop
  /-- Checksum of a buffer window (41_checksum.md R98). -/
  | crc
  /-- Read an unsigned bit field from a buffer window (42_bitfield.md R105). -/
  | rdbits
  /-- Start a new scan (43_scanner.md R114). -/
  | scanrst
  /-- One scanner attempt (43_scanner.md R115). -/
  | scanstep
  /-- Scan to the next frame or to the end (43_scanner.md R116). -/
  | scannext
deriving DecidableEq, Repr

end Sys2Proof
end

