-- ==== Sys2Proof/Decode.lean ====
section
/-! DEFINITION. The decoder and the encoder of the 32-bit command word (30_encoding.md R62 to R67). -/

namespace Sys2Proof

/-- Why a word spells no command (30_encoding.md R64); either way the engine finishes with BAD_CMD. -/
inductive Illegal where
  /-- RSV, bits 31:4, is not 0. -/
  | rsvNonzero
  /-- OP, bits 3:0, is 0x6 to 0xF. -/
  | reservedOp
deriving DecidableEq, Repr

/-- OP, bits 3:0 of the command word (30_encoding.md R62). -/
def opField (w : BitVec 32) : BitVec 4 := w.extractLsb' 0 4

/-- RSV, bits 31:4 of the command word (30_encoding.md R62). -/
def rsvField (w : BitVec 32) : BitVec 28 := w.extractLsb' 4 28

/-- The opcode map read from OP to the command (30_encoding.md R63). -/
def decodeOp (op : BitVec 4) : Except Illegal Instr :=
  match op.toNat with
  | 0 => .ok .nop
  | 1 => .ok .crc
  | 2 => .ok .rdbits
  | 3 => .ok .scanrst
  | 4 => .ok .scanstep
  | 5 => .ok .scannext
  | _ => .error .reservedOp

/-- Decoding, total over all 2^32 words (30_encoding.md R64). -/
def decode (w : BitVec 32) : Except Illegal Instr :=
  if rsvField w = 0#28 then decodeOp (opField w) else .error .rsvNonzero

/-- The opcode map read from the command to OP (30_encoding.md R63). -/
def opcode : Instr → BitVec 4
  | .nop => 0x0#4
  | .crc => 0x1#4
  | .rdbits => 0x2#4
  | .scanrst => 0x3#4
  | .scanstep => 0x4#4
  | .scannext => 0x5#4

/-- The command word of a command: RSV = 0 above its opcode (30_encoding.md R62, R63). -/
def encode (i : Instr) : BitVec 32 := 0#28 ++ opcode i

/-- What the decoder reads from an instruction given as the opcode table numbers its bits; bits above `nbits` are 0. -/
def decodeTableWord (nbits w : Nat) : Option Instr :=
  match decode (BitVec.ofNat 32 (w % 2 ^ nbits)) with
  | .ok i => some i
  | .error _ => none

end Sys2Proof
end

