-- ==== Sys2Proof/Config.lean ====
section
/-! DEFINITION. The constants the spec fixes (00_scope.md R6, R7) and the parameters it leaves open. -/

namespace Sys2Proof.Config

/-- PREAMBLE, the first byte of every frame (00_scope.md R6). -/
def preamble : Byte := 0xD3#8

/-- CRC_POLY, the 25-bit generator polynomial with bit 24 set (00_scope.md R6). -/
def crcPoly : Word := 0x01864CFB#32

/-- CRC_INIT (00_scope.md R6). -/
def crcInit : Word := 0#32

/-- LEN_MASK, which keeps the 10 length bits of the header word (00_scope.md R6, 30_encoding.md R72). -/
def lenMask : Nat := 0x3FF

/-- HEADER_BYTES (00_scope.md R6). -/
def headerBytes : Nat := 3

/-- TRAILER_BYTES (00_scope.md R6). -/
def trailerBytes : Nat := 3

/-- FRAME_BYTES(L) = L + 6 (00_scope.md R6, 30_encoding.md R71). -/
def frameBytes (L : Nat) : Nat := L + 6

/-- RB_MAX_WIDTH, the widest field the Bit-Field Reader accepts (00_scope.md R7, decision D9). -/
def rbMaxWidth : Nat := 32

/-- What the implementation chooses: how far BUF_CAP lies above its lower bound.
A free value with no body; it ranges over exactly the capacities that 00_scope.md R7 allows. -/
opaque capIndex : Fin (536869883 + 1)

/-- BUF_CAP, the capacity of the buffer memory in bytes, `1029 <= BUF_CAP <= 2^29`
(00_scope.md R7, decision D3: a parameter, so a claim holds for every allowed value; log entry 7). -/
def bufCap : Nat := capIndex.val + 1029

/-- REG_BASE, where the platform places the REG space (20_memory.md R54). No rule depends on it, and nothing of the model reads it. -/
opaque regBase : Nat

/-- BUF_BASE, where the platform places the BUF space (20_memory.md R54). No rule depends on it, and nothing of the model reads it. -/
opaque bufBase : Nat

end Sys2Proof.Config
end

