-- ==== Sys2Proof/Machine/HostSyntax.lean ====
section
/-! DEFINITION. The host agent's vocabulary as plain data: bus transactions (30_encoding.md R77) and host statements (R75). -/

namespace Sys2Proof.Machine

/-- One transaction the host makes on the block (60_exceptions.md R132, 30_encoding.md R77).
A register access carries its width in bits, since a width other than 32 is a host error (10_state.md R37). -/
inductive HostAccess where
  /-- `W off=value`: HostRegWrite. -/
  | regWrite (off bits : Nat) (v : Word)
  /-- `R off`: HostRegRead. -/
  | regRead (off bits : Nat)
  /-- `WB a=byte`: HostBufWrite. -/
  | bufWrite (a : Nat) (v : Byte)
  /-- `RB a`: HostBufRead. -/
  | bufRead (a : Nat)
  /-- Reset asserted, which may happen at any time (70_reset_and_hazards.md R139). -/
  | reset
deriving DecidableEq, Repr

/-- A host name bound by `RREG`, `RBUF` or `LET`; names are numbered. -/
abbrev HostName := Nat

/-- A label of a host program; labels are numbered. -/
abbrev HostLabel := Nat

/-- Host expressions: constants, host names, `+`, `-` and `& mask` (30_encoding.md R75).
That `mask` is a constant and no host name is the model's choice, since R75 does not say what it is (log entry 16). -/
inductive HostExpr where
  | const (v : Word)
  | name (x : HostName)
  | add (e f : HostExpr)
  | sub (e f : HostExpr)
  | mask (e : HostExpr) (m : Word)
deriving DecidableEq, Repr

/-- What a condition compares: constants, host names and the `.ERR` and `.SCAN_OUT` fields of a STATUS value (30_encoding.md R75). -/
inductive HostTerm where
  | const (v : Word)
  | name (x : HostName)
  | errOf (x : HostName)
  | scanOutOf (x : HostName)
deriving DecidableEq, Repr

/-- The comparisons `==`, `!=` and `<` (30_encoding.md R75). -/
inductive HostRel where
  | eq
  | ne
  | lt
deriving DecidableEq, Repr

/-- The condition of `IF cond GOTO label` (30_encoding.md R75). -/
structure HostCond where
  lhs : HostTerm
  rel : HostRel
  rhs : HostTerm
deriving DecidableEq, Repr

/-- One elementary host statement (30_encoding.md R75).
Commands, `WBUF` of several bytes and the pseudo-instructions expand into lists of these (Machine/HostProgram.lean, R74 to R76;
log entry 10).
Which operands may be expressions where R75 is silent is the model's choice: the offset of `WREG` and `RREG` and the bytes of `WBUF`
are literals, and `v` and `a` are expressions (log entry 16). -/
inductive HostOp where
  /-- `WREG off, v`. -/
  | wreg (off : Nat) (v : HostExpr)
  /-- `RREG off -> name`. -/
  | rreg (off : Nat) (x : HostName)
  /-- The `i`-th byte of `WBUF a, b0, b1, ...`: HostBufWrite(a + i, b). -/
  | wbuf (a : HostExpr) (i : Nat) (b : Byte)
  /-- `RBUF a -> name`. -/
  | rbuf (a : HostExpr) (x : HostName)
  /-- A raw transaction, binding what it returns: accesses of other widths, and reset. -/
  | bus (t : HostAccess) (x : Option HostName)
  /-- `LET name <- expr`. -/
  | letName (x : HostName) (e : HostExpr)
  /-- `WAIT`: poll STATUS until BUSY reads 0. -/
  | wait
  /-- The place a `label:` stands at. -/
  | label (l : HostLabel)
  /-- `IF cond GOTO label`. -/
  | ifGoto (c : HostCond) (l : HostLabel)
  /-- `GOTO label`. -/
  | goto (l : HostLabel)
  /-- `HALT`: end of the host program. -/
  | halt
deriving DecidableEq, Repr

end Sys2Proof.Machine
end

