-- ==== Sys2Proof/Machine/State.lean ====
section
/-! DEFINITION. The state of the frame core and of the host that drives it, as plain data, and its value after reset. -/

namespace Sys2Proof.Machine

/-- The completion codes of STATUS.ERR (10_state.md R26, 60_exceptions.md R122). -/
inductive ErrCode where
  /-- 0: the command did all of its rule. -/
  | ok
  /-- 1: the field runs past its window. -/
  | outOfRange
  /-- 2: BUF_LEN is above BUF_CAP, or the operand window runs past BUF_LEN. -/
  | badWindow
  /-- 3: the field is wider than 32 bits. -/
  | badWidth
  /-- 4: a reserved or malformed command word. -/
  | badCmd
deriving DecidableEq, Repr

/-- The codes of STATUS.SCAN_OUT (10_state.md R27). -/
inductive ScanOut where
  /-- 0, NONE: no scanner attempt since reset or the last SCANRST. -/
  | noAttempt
  /-- 1, FRAME: a frame was validated and emitted. -/
  | frame
  /-- 2, SKIP_PREAMBLE: the byte at the cursor is not 0xD3. -/
  | skipPreamble
  /-- 3, SKIP_SHORT: too few bytes remain for the header or for the frame. -/
  | skipShort
  /-- 4, SKIP_CRC: the checksum over the candidate is not 0. -/
  | skipCrc
  /-- 5, END: the cursor is at or past BUF_LEN. -/
  | atEnd
deriving DecidableEq, Repr

/-- The two agents (00_scope.md R3). -/
inductive Agent where
  | host
  | engine
deriving DecidableEq, Repr

/-- The named registers of the REG space (10_state.md R23). -/
inductive Reg where
  | cmd
  | status
  | arg0
  | arg1
  | arg2
  | arg3
  | result
  | bufLen
  | cursor
  | frameOff
  | frameLen
  | frameCount
  | caps
deriving DecidableEq, Repr

/-- The buffer memory BUF: the bytes the host has written since reset, addresses strictly rising.
An unlisted address holds no value (20_memory.md R49; log entry 8). -/
abbrev Memory := List Host.Cell

/-- The canonical form of the buffer memory: addresses strictly rising.
An unlisted byte has no value, so no listed byte can equal what an unlisted one reads as. -/
abbrev Memory.wf (m : Memory) : Prop := m.Pairwise fun x y => x.1 < y.1

/-- The host agent: its program, where it stands in it, the names it has bound, and whether it has executed `HALT`
(00_scope.md R3, 30_encoding.md R75, 60_exceptions.md R133). -/
structure HostAgent where
  prog   : List HostOp
  pc     : Nat
  names  : List (HostName × Word)
  halted : Bool
deriving DecidableEq, Repr

/-- A host with nothing to do. -/
def HostAgent.idle : HostAgent := { prog := [], pc := 0, names := [], halted := false }

/-- Everything the spec gives the machine.
STATUS is the view of `pending`, `err` and `scanOut` (10_state.md R25, R39), and CAPS is the constant `Config.bufCap` (R35). -/
structure State where
  /-- CMD, the command word last written (10_state.md R24). -/
  cmd        : Word
  /-- LATCH, the command word captured at the host write of CMD (10_state.md R39). -/
  latch      : Word
  /-- PENDING, which STATUS.BUSY reads (10_state.md R39). -/
  pending    : Bool
  /-- STATUS.ERR (10_state.md R26). -/
  err        : ErrCode
  /-- STATUS.SCAN_OUT (10_state.md R27). -/
  scanOut    : ScanOut
  /-- ARG0 to ARG3 (10_state.md R28). -/
  arg0       : Word
  arg1       : Word
  arg2       : Word
  arg3       : Word
  /-- RESULT (10_state.md R29). -/
  result     : Word
  /-- BUF_LEN (10_state.md R30). -/
  bufLen     : Word
  /-- CURSOR (10_state.md R31). -/
  cursor     : Word
  /-- FRAME_OFF (10_state.md R32). -/
  frameOff   : Word
  /-- FRAME_LEN (10_state.md R33). -/
  frameLen   : Word
  /-- FRAME_COUNT (10_state.md R34). -/
  frameCount : Word
  /-- The CRC shift register, which the host cannot read (10_state.md R40). -/
  crcReg     : Word
  /-- The Bit-Field Reader's accumulator, which the host cannot read (10_state.md R41). -/
  bitAcc     : Word
  /-- The buffer memory BUF (10_state.md R20). -/
  buf        : Memory
  /-- The host agent, which lies outside the block (00_scope.md R3; log entry 2). -/
  host       : HostAgent
  /-- The MODEL's own: which agent moves at each coming step during which a command is pending; when the list is used up the
  engine moves (40_command_common.md R79, weak fairness; log entry 3). -/
  turns      : List Agent
deriving DecidableEq, Repr

/-- Faults a model records (60_exceptions.md R126): the run stops, so no later step clears one (log entry 1). -/
inductive Fault where
  /-- Raised by a host access at a reserved, unaligned or too high register offset, of a width other than 32 bits, or at a buffer
  address at or above BUF_CAP (10_state.md R37, 20_memory.md R51). Safe: the hardware's response is unspecified. -/
  | hostBadAccess
  /-- Raised by any host access other than a read of STATUS while a command is pending (70_reset_and_hazards.md R144).
  Safe: the hardware's response is unspecified. -/
  | hostHazard
  /-- Raised by a command's MemRead, or a HostBufRead, that covers a byte not written since reset (20_memory.md R49).
  Safe: the hardware's result is unspecified. -/
  | uninitRead
deriving DecidableEq, Repr

/-- Why a step has no meaning. -/
inductive Refusal where
  /-- Raised by an arm of `exec` whose instruction has no meaning yet; no arm does. Safe. -/
  | notModelled (mnemonic : String)
  /-- Raised by a host statement that uses a name nothing has bound (30_encoding.md R74 asks for a bound one). Safe. -/
  | hostUnboundName (x : HostName)
  /-- Raised by a host jump to a label that stands nowhere in the program (30_encoding.md R75). Safe. -/
  | hostMissingLabel (l : HostLabel)
deriving DecidableEq, Repr

/-- The machine right after reset (10_state.md R43): every register 0, no command pending, every byte of BUF unwritten.
The spec gives `crcReg` and `bitAcc` no value (log entry 6).
The host has no program yet. -/
def State.reset : State where
  cmd := 0#32
  latch := 0#32
  pending := false
  err := .ok
  scanOut := .noAttempt
  arg0 := 0#32
  arg1 := 0#32
  arg2 := 0#32
  arg3 := 0#32
  result := 0#32
  bufLen := 0#32
  cursor := 0#32
  frameOff := 0#32
  frameLen := 0#32
  frameCount := 0#32
  crcReg := 0#32
  bitAcc := 0#32
  buf := []
  host := HostAgent.idle
  turns := []

end Sys2Proof.Machine
end

