-- ==== Sys2Proof/Machine/Flags.lean ====
section
/-! DEFINITION. The STATUS register: the codes of its fields and its 32-bit view (10_state.md R25 to R27, R38). -/

namespace Sys2Proof.Machine

/-- The 4-bit code of STATUS.ERR (10_state.md R26). -/
def errBits : ErrCode → BitVec 4
  | .ok => 0#4
  | .outOfRange => 1#4
  | .badWindow => 2#4
  | .badWidth => 3#4
  | .badCmd => 4#4

/-- The 3-bit code of STATUS.SCAN_OUT (10_state.md R27). -/
def scanOutBits : ScanOut → BitVec 3
  | .noAttempt => 0#3
  | .frame => 1#3
  | .skipPreamble => 2#3
  | .skipShort => 3#3
  | .skipCrc => 4#3
  | .atEnd => 5#3

/-- STATUS as the host reads it: RSV1 (31:11), SCAN_OUT (10:8), ERR (7:4), RSV0 (3:1), BUSY (0) (10_state.md R25).
BUSY reads PENDING (R39). -/
def statusWord (s : State) : Word :=
  0#21 ++ scanOutBits s.scanOut ++ errBits s.err ++ 0#3 ++ BitVec.ofBool s.pending

/-- The BUSY bit of a STATUS value (10_state.md R25). -/
def busyField (v : Word) : Bool := v.getLsbD 0

/-- The ERR field of a STATUS value (10_state.md R25). -/
def errField (v : Word) : Word := (v.extractLsb' 4 4).setWidth 32

/-- The SCAN_OUT field of a STATUS value (10_state.md R25). -/
def scanOutField (v : Word) : Word := (v.extractLsb' 8 3).setWidth 32

end Sys2Proof.Machine
end

