-- ==== Sys2Proof/Machine/Ops.lean ====
section
/-! DEFINITION. The shared operations: buffer memory, the register map, starting a command and finishing one. -/

namespace Sys2Proof.Machine

/-! ### Buffer memory -/

/-- The byte at an address, if the host has written it since reset (20_memory.md R49). -/
def Memory.byteAt : Memory → Nat → Option Byte
  | [], _ => none
  | c :: m, a => if c.1 = a then some c.2 else Memory.byteAt m a

/-- Write one byte, keeping the addresses strictly rising (60_exceptions.md R132: `BUF[a] <- v`). -/
def Memory.write : Memory → Nat → Byte → Memory
  | [], a, v => [(a, v)]
  | c :: m, a, v =>
    if a < c.1 then (a, v) :: c :: m
    else if c.1 = a then (a, v) :: m
    else c :: Memory.write m a v

/-- `MemRead(a, n)`: the bytes `BUF[a .. a+n)` in address order, or nothing if one of them is unwritten
(00_scope.md R12, 20_memory.md R49). The engine only ever reads the buffer. -/
def memRead (m : Memory) (a : Nat) : Nat → Option (List Byte)
  | 0 => some []
  | n + 1 =>
    match m.byteAt a, memRead m (a + 1) n with
    | some b, some bs => some (b :: bs)
    | _, _ => none

/-! ### Starting and finishing a command -/

/-- Issue: a host write of CMD with no command pending (40_command_common.md R78). -/
def startCommand (v : Word) (s : State) : State := { s with cmd := v, latch := v, pending := true }

/-- `finish(code)` ends the current command (00_scope.md R13).
The block has no traps: this is all an error does (60_exceptions.md R129), and no return from one exists, since the next command
overwrites ERR (R130). -/
def finish (code : ErrCode) (s : State) : State := { s with err := code, pending := false }

/-! ### The register map -/

/-- The register at an offset, if the offset is one of the map's (10_state.md R23); reserved and unaligned offsets have none (R37). -/
def regAt : Nat → Option Reg
  | 0x00 => some .cmd
  | 0x04 => some .status
  | 0x08 => some .arg0
  | 0x0C => some .arg1
  | 0x10 => some .arg2
  | 0x14 => some .arg3
  | 0x18 => some .result
  | 0x1C => some .bufLen
  | 0x20 => some .cursor
  | 0x24 => some .frameOff
  | 0x28 => some .frameLen
  | 0x2C => some .frameCount
  | 0x30 => some .caps
  | _ => none

/-- The offset of a register in the map (10_state.md R23). -/
def regOffset : Reg → Nat
  | .cmd => 0x00
  | .status => 0x04
  | .arg0 => 0x08
  | .arg1 => 0x0C
  | .arg2 => 0x10
  | .arg3 => 0x14
  | .result => 0x18
  | .bufLen => 0x1C
  | .cursor => 0x20
  | .frameOff => 0x24
  | .frameLen => 0x28
  | .frameCount => 0x2C
  | .caps => 0x30

/-- What a register reads as (10_state.md R23 to R35). CAPS is the constant BUF_CAP (R35). -/
def readReg (s : State) : Reg → Word
  | .cmd => s.cmd
  | .status => statusWord s
  | .arg0 => s.arg0
  | .arg1 => s.arg1
  | .arg2 => s.arg2
  | .arg3 => s.arg3
  | .result => s.result
  | .bufLen => s.bufLen
  | .cursor => s.cursor
  | .frameOff => s.frameOff
  | .frameLen => s.frameLen
  | .frameCount => s.frameCount
  | .caps => BitVec.ofNat 32 Config.bufCap

/-- What a host write of a register does when no command is pending (10_state.md R36): a read-only register ignores it, a
read-write one stores all 32 bits, and CMD also starts a command (40_command_common.md R78). -/
def writeReg (r : Reg) (v : Word) (s : State) : State :=
  match r with
  | .cmd => startCommand v s
  | .status => s
  | .arg0 => { s with arg0 := v }
  | .arg1 => { s with arg1 := v }
  | .arg2 => { s with arg2 := v }
  | .arg3 => { s with arg3 := v }
  | .result => s
  | .bufLen => { s with bufLen := v }
  | .cursor => s
  | .frameOff => s
  | .frameLen => s
  | .frameCount => s
  | .caps => s

/-! ### Reset -/

/-- Reset asserted at any time (70_reset_and_hazards.md R139, R140): every register and internal field takes its reset value, a
pending command is abandoned and every byte of BUF is unwritten. The host agent lies outside the block and keeps its place (log entry 2). -/
def resetBlock (s : State) : State := { State.reset with host := s.host, turns := s.turns }

end Sys2Proof.Machine
end

