-- ==== Sys2Proof/Machine/Operands.lean ====
section
/-! DEFINITION. Operand assembly and the checks every buffer command shares (30_encoding.md R65, 40_command_common.md R82 to R84). -/

namespace Sys2Proof.Machine

/-- The four operands as natural numbers: no extension, scaling or masking (30_encoding.md R65). -/
def operand0 (s : State) : Nat := s.arg0.toNat

/-- See `operand0`. -/
def operand1 (s : State) : Nat := s.arg1.toNat

/-- See `operand0`. -/
def operand2 (s : State) : Nat := s.arg2.toNat

/-- See `operand0`. -/
def operand3 (s : State) : Nat := s.arg3.toNat

/-- The buffer-length check `BUF_LEN <= BUF_CAP` (40_command_common.md R83). -/
def bufLenOk (s : State) : Bool := decide (s.bufLen.toNat ≤ Config.bufCap)

/-- The window check `base + n <= BUF_LEN`, the sum exact (40_command_common.md R84, 00_scope.md R8). -/
def windowOk (s : State) (base n : Nat) : Bool := decide (base + n ≤ s.bufLen.toNat)

/-- A command that needs the buffer runs `k` only after the buffer-length check, and finishes with BAD_WINDOW otherwise
(40_command_common.md R83). -/
def withBufLen (s : State) (k : Host.Outcome State Fault Refusal) : Host.Outcome State Fault Refusal :=
  if bufLenOk s then k else .next (finish .badWindow s)

/-- The two window checks in their order (40_command_common.md R82 to R84). -/
def withWindow (s : State) (base n : Nat) (k : Host.Outcome State Fault Refusal) : Host.Outcome State Fault Refusal :=
  withBufLen s (if windowOk s base n then k else .next (finish .badWindow s))

/-- A command goes on with the bytes it reads, and faults UNINIT_READ if one of them is unwritten (20_memory.md R49). -/
def withBytes (s : State) (a n : Nat) (k : List Byte → Host.Outcome State Fault Refusal) : Host.Outcome State Fault Refusal :=
  match memRead s.buf a n with
  | some bs => k bs
  | none => .fault .uninitRead

end Sys2Proof.Machine
end

