-- ==== Sys2Proof/Machine/BitField.lean ====
section
/-! DEFINITION. The Bit-Field Reader and the RDBITS command (42_bitfield.md). -/

namespace Sys2Proof.Machine

/-- Stream bit `i` of a byte sequence (42_bitfield.md R99, 00_scope.md R10), defined for `i < 8 * len(B)`. -/
def sbit (B : List Byte) (i : Nat) : Nat := ((B.getD (i / 8) 0#8).toNat >>> (7 - i % 8)) &&& 1

/-- `readbits(B, s, n)`: bits `s` to `s + n - 1` in that order, the first the most significant (42_bitfield.md R100). -/
def readbits (B : List Byte) (s : Nat) : Nat → Nat
  | 0 => 0
  | n + 1 => (readbits B s n <<< 1) ||| sbit B (s + n)

/-- Bytes read as one big-endian number, the word `W` of the barrel shifter (42_bitfield.md R104). -/
def bigEndian (B : List Byte) : Nat := B.foldl (fun v b => (v <<< 8) ||| b.toNat) 0

/-- The hardware datapath of the reader, a right shift and a mask (42_bitfield.md R104), for `n >= 1`. -/
def barrelShift (B : List Byte) (s n : Nat) : Nat :=
  (bigEndian ((B.drop (s / 8)).take ((s + n - 1) / 8 - s / 8 + 1)) >>> (8 * ((s + n - 1) / 8 + 1) - (s + n))) &&&
    ((1 <<< n) - 1)

/-- The end of a successful RDBITS: the accumulator's final value is RESULT (10_state.md R41, 42_bitfield.md R105). -/
def finishField (v : Nat) (s : State) : State :=
  finish .ok { s with result := BitVec.ofNat 32 v, bitAcc := BitVec.ofNat 32 v }

/-- The first byte of the window that holds a bit of the field (42_bitfield.md R104, R105). -/
def firstByte (start : Nat) : Nat := start / 8

/-- The last byte of the window that holds a bit of the field, for a width of at least 1 (42_bitfield.md R104, R105). -/
def lastByte (start width : Nat) : Nat := (start + width - 1) / 8

/-- The read of a field of width at least 1: only the bytes that hold it, then the field within them
(42_bitfield.md R105, 20_memory.md R50). -/
def readField (base start width : Nat) (s : State) : Host.Outcome State Fault Refusal :=
  withBytes s (base + firstByte start) (lastByte start width - firstByte start + 1) fun W =>
    .next (finishField (readbits W (start - 8 * firstByte start) width) s)

/-- RDBITS: read an unsigned bit field from a buffer window, its checks in the order of 40_command_common.md R82
(42_bitfield.md R105). -/
def execRdbits (s : State) : Host.Outcome State Fault Refusal :=
  withWindow s (operand0 s) (operand1 s)
    (if operand3 s > Config.rbMaxWidth then .next (finish .badWidth s)
     else if operand2 s + operand3 s > 8 * operand1 s then .next (finish .outOfRange s)
     else if operand3 s = 0 then .next (finishField 0 s)
     else readField (operand0 s) (operand2 s) (operand3 s) s)

end Sys2Proof.Machine
end

