-- ==== Sys2Proof/Machine/Checksum.lean ====
section
/-! DEFINITION. The Checksum Engine: CRC-24Q and the CRC command (41_checksum.md). -/

namespace Sys2Proof.Machine

/-- One round: shift left by 1 in a 32-bit register, then XOR the polynomial if bit 24 is set (41_checksum.md R91). -/
def crcRound (r : Word) : Word :=
  if (r <<< 1).getLsbD 24 then (r <<< 1) ^^^ Config.crcPoly else r <<< 1

/-- `k` rounds. -/
def crcRounds : Nat → Word → Word
  | 0, r => r
  | k + 1, r => crcRounds k (crcRound r)

/-- One byte of the CRC: the byte lands in bits 23:16, then 8 rounds (41_checksum.md R91). -/
def crcByte (r : Word) (b : Byte) : Word := crcRounds 8 (r ^^^ (b.setWidth 32 <<< 16))

/-- The CRC shift register after a byte sequence, from CRC_INIT, bytes in address order (41_checksum.md R92). -/
def crcRegister (B : List Byte) : Word := B.foldl crcByte Config.crcInit

/-- `crc24q(B)`: bits 23:0 of the register, no reflection, no final XOR (41_checksum.md R92). -/
def crc24q (B : List Byte) : BitVec 24 := (crcRegister B).extractLsb' 0 24

/-- CRC: checksum of a buffer window (41_checksum.md R98). The shift register keeps its last value (log entry 5). -/
def execCrc (s : State) : Host.Outcome State Fault Refusal :=
  withWindow s (operand0 s) (operand1 s)
    (withBytes s (operand0 s) (operand1 s) fun B =>
      .next (finish .ok { s with result := (crc24q B).setWidth 32, crcReg := crcRegister B }))

end Sys2Proof.Machine
end

