-- ==== Sys2Proof/Machine/Scanner.lean ====
section
/-! DEFINITION. The Frame Scanner and its three commands (43_scanner.md). -/

namespace Sys2Proof.Machine

/-- What one attempt answers (43_scanner.md R107): outcome, next cursor and, on FRAME, the frame `(o, L)`; and, where it computed
a checksum, what it left in the CRC shift register (10_state.md R40). -/
structure Attempt where
  out   : ScanOut
  next  : Nat
  frame : Option (Nat × Nat)
  crc   : Option Word
deriving DecidableEq, Repr

/-- The payload length from the two length bytes: big-endian, masked to 10 bits (30_encoding.md R72). -/
def payloadLen (b1 b2 : Byte) : Nat := ((b1.toNat <<< 8) ||| b2.toNat) &&& Config.lenMask

/-- The checksum test over the `L + 6` bytes of a candidate, then SKIP_CRC or FRAME (43_scanner.md R112, R113); the cursor moves by
`L + 6` on FRAME (90_conflicts.md C1; log entry 15). -/
def judge (o L : Nat) (B : List Byte) : Attempt :=
  if crc24q B ≠ 0#24 then
    { out := .skipCrc, next := o + 1, frame := none, crc := some (crcRegister B) }
  else
    { out := .frame, next := o + Config.frameBytes L, frame := some (o, L), crc := some (crcRegister B) }

/-- `scanstep(BUF, n, o)`, one attempt (43_scanner.md R107 to R113). A read of an unwritten byte faults (20_memory.md R49). -/
def scanAttempt (m : Memory) (n o : Nat) : Except Fault Attempt :=
  if o ≥ n then
    .ok { out := .atEnd, next := o, frame := none, crc := none }
  else
    match m.byteAt o with
    | none => .error .uninitRead
    | some b0 =>
      if b0 ≠ Config.preamble then
        .ok { out := .skipPreamble, next := o + 1, frame := none, crc := none }
      else if o + Config.headerBytes > n then
        .ok { out := .skipShort, next := o + 1, frame := none, crc := none }
      else
        match m.byteAt (o + 1), m.byteAt (o + 2) with
        | some b1, some b2 =>
          if o + Config.frameBytes (payloadLen b1 b2) > n then
            .ok { out := .skipShort, next := o + 1, frame := none, crc := none }
          else
            match memRead m o (Config.frameBytes (payloadLen b1 b2)) with
            | some B => .ok (judge o (payloadLen b1 b2) B)
            | none => .error .uninitRead
        | _, _ => .error .uninitRead

/-- The loop of SCANNEXT (43_scanner.md R116): attempts until one is FRAME or END.
`k` is the number of bytes left from the cursor, `n - o`; each skip lowers both sides by 1 (R117), so at `k = 0` the cursor is at
the end and the attempt there is END. Law `scanLoop_eq` states the loop's own equation (log entry 12). -/
def scanLoop (m : Memory) (n : Nat) : Nat → Nat → Except Fault Attempt
  | 0, o => .ok { out := .atEnd, next := o, frame := none, crc := none }
  | k + 1, o =>
    match scanAttempt m n o with
    | .error f => .error f
    | .ok a =>
      if a.out = .frame ∨ a.out = .atEnd then .ok a
      else
        match scanLoop m n k a.next with
        | .error f => .error f
        | .ok z => .ok { z with crc := z.crc <|> a.crc }

/-- What SCANSTEP and SCANNEXT write from the deciding attempt (43_scanner.md R115, R116). FRAME_COUNT wraps (10_state.md R34). -/
def applyAttempt (a : Attempt) (s : State) : State :=
  match a.frame with
  | some (o, L) =>
    { s with
      frameOff := BitVec.ofNat 32 o
      frameLen := BitVec.ofNat 32 L
      frameCount := s.frameCount + 1#32
      cursor := BitVec.ofNat 32 a.next
      scanOut := a.out
      crcReg := a.crc.getD s.crcReg }
  | none => { s with cursor := BitVec.ofNat 32 a.next, scanOut := a.out, crcReg := a.crc.getD s.crcReg }

/-- The end of a scanner command, from what its attempts answered. -/
def finishScan (s : State) : Except Fault Attempt → Host.Outcome State Fault Refusal
  | .error f => .fault f
  | .ok a => .next (finish .ok (applyAttempt a s))

/-- The registers SCANRST clears (43_scanner.md R114). -/
def clearScan (s : State) : State :=
  { s with cursor := 0#32, frameOff := 0#32, frameLen := 0#32, frameCount := 0#32, scanOut := .noAttempt }

/-- SCANRST: start a new scan (43_scanner.md R114). -/
def execScanrst (s : State) : Host.Outcome State Fault Refusal := .next (finish .ok (clearScan s))

/-- SCANSTEP: one scanner attempt (43_scanner.md R115). -/
def execScanstep (s : State) : Host.Outcome State Fault Refusal :=
  withBufLen s (finishScan s (scanAttempt s.buf s.bufLen.toNat s.cursor.toNat))

/-- SCANNEXT: scan to the next frame or to the end (43_scanner.md R116). -/
def execScannext (s : State) : Host.Outcome State Fault Refusal :=
  withBufLen s (finishScan s (scanLoop s.buf s.bufLen.toNat (s.bufLen.toNat - s.cursor.toNat) s.cursor.toNat))

/-- The payload of the last emitted frame: a view into BUF, not a copy (70_reset_and_hazards.md R146, 43_scanner.md R113). -/
def framePayload (s : State) : Option (List Byte) :=
  memRead s.buf (s.frameOff.toNat + Config.headerBytes) s.frameLen.toNat

end Sys2Proof.Machine
end

