-- ==== Sys2Proof/Machine/System.lean ====
section
/-! DEFINITION. The command that touches no buffer byte and no scanner register: NOP (40_command_common.md R86). -/

namespace Sys2Proof.Machine

/-- NOP: `finish(OK)` and nothing else; it does not check BUF_LEN (40_command_common.md R86). -/
def execNop (s : State) : Host.Outcome State Fault Refusal := .next (finish .ok s)

end Sys2Proof.Machine
end

