-- ==== Sys2Proof/Machine/Dispatch.lean ====
section
/-! DEFINITION. The dispatch of the engine step: one arm per command (40_command_common.md R85). -/

namespace Sys2Proof.Machine

def exec (i : Instr) (s : State) : Host.Outcome State Fault Refusal :=
  match i with
  | .nop => Sys2Proof.Machine.execNop s
  | .crc => Sys2Proof.Machine.execCrc s
  | .rdbits => Sys2Proof.Machine.execRdbits s
  | .scanrst => Sys2Proof.Machine.execScanrst s
  | .scanstep => Sys2Proof.Machine.execScanstep s
  | .scannext => Sys2Proof.Machine.execScannext s

end Sys2Proof.Machine
end

