-- ==== Sys2Proof/Machine/Engine.lean ====
section
/-! DEFINITION. The engine's step, which agent moves, and the capture of a command word. -/

namespace Sys2Proof.Machine

/-- The engine step, taken only while a command is pending: decode LATCH, then the command's rule; an illegal word finishes with
BAD_CMD (40_command_common.md R79, R85, R87). -/
def engineStep (s : State) : Host.Outcome State Fault Refusal :=
  match decode s.latch with
  | .ok i => exec i s
  | .error _ => .next (finish .badCmd s)

/-- Whether the engine moves next: a command is pending and no host turn comes first (40_command_common.md R79). -/
def engineMoves (s : State) : Bool := s.pending && s.turns.head? != some .host

/-- A step while a command is pending uses up one turn. -/
def takeTurn (s : State) : State := if s.pending then { s with turns := s.turns.tail } else s

/-- A command word in LATCH, as a host write of CMD leaves it, with the engine to move. -/
def captureWord (v : Word) (s : State) : State := { startCommand v s with turns := [] }

end Sys2Proof.Machine
end

