-- ==== Sys2Proof/Machine/HostPort.lean ====
section
/-! DEFINITION. The host's accesses to the block: HostRegWrite, HostRegRead, HostBufWrite, HostBufRead and reset
(60_exceptions.md R132). -/

namespace Sys2Proof.Machine

/-- The register a register access reaches: 32 bits wide at an offset of the map, otherwise HOST_BAD_ACCESS (10_state.md R37). -/
def regOf (off bits : Nat) : Except Fault Reg :=
  if bits = 32 then
    match regAt off with
    | some r => .ok r
    | none => .error .hostBadAccess
  else .error .hostBadAccess

/-- `HostRegWrite(off, v)` (10_state.md R36). Any write while a command is pending is HOST_HAZARD, a bad one
too (70_reset_and_hazards.md R144; log entry 9). -/
def hostRegWrite (off bits : Nat) (v : Word) (s : State) : Except Fault State :=
  if s.pending then .error .hostHazard
  else
    match regOf off bits with
    | .ok r => .ok (writeReg r v s)
    | .error f => .error f

/-- `HostRegRead(off)`. While a command is pending only STATUS may be read (70_reset_and_hazards.md R144). -/
def hostRegRead (off bits : Nat) (s : State) : Except Fault Word :=
  match regOf off bits with
  | .ok r => if s.pending ∧ r ≠ .status then .error .hostHazard else .ok (readReg s r)
  | .error f => if s.pending then .error .hostHazard else .error f

/-- `HostBufWrite(a, v)`: one byte at any address below BUF_CAP (20_memory.md R51). -/
def hostBufWrite (a : Nat) (v : Byte) (s : State) : Except Fault State :=
  if s.pending then .error .hostHazard
  else if a < Config.bufCap then .ok { s with buf := s.buf.write a v }
  else .error .hostBadAccess

/-- `HostBufRead(a)`: one byte, which must have been written (20_memory.md R49, R51).
A read while a command is pending is HOST_HAZARD, of an unwritten byte or a bad address too (log entry 9). -/
def hostBufRead (a : Nat) (s : State) : Except Fault Byte :=
  if s.pending then .error .hostHazard
  else if a < Config.bufCap then
    match s.buf.byteAt a with
    | some b => .ok b
    | none => .error .uninitRead
  else .error .hostBadAccess

/-- One transaction: the state after it and the value the host gets back (60_exceptions.md R132). -/
def hostAccess (t : HostAccess) (s : State) : Except Fault (State × Option Word) :=
  match t with
  | .regWrite off bits v =>
    match hostRegWrite off bits v s with
    | .ok s' => .ok (s', none)
    | .error f => .error f
  | .regRead off bits =>
    match hostRegRead off bits s with
    | .ok w => .ok (s, some w)
    | .error f => .error f
  | .bufWrite a v =>
    match hostBufWrite a v s with
    | .ok s' => .ok (s', none)
    | .error f => .error f
  | .bufRead a =>
    match hostBufRead a s with
    | .ok b => .ok (s, some (b.setWidth 32))
    | .error f => .error f
  | .reset => .ok (resetBlock s, none)

end Sys2Proof.Machine
end

