-- ==== Sys2Proof/Machine/HostProgram.lean ====
section
/-! DEFINITION. The host agent: the assembler's expansions (30_encoding.md R74, R76) and one host statement as a step (R75). -/

namespace Sys2Proof.Machine

/-! ### The assembler -/

/-- `WBUF a, b0, b1, ..., bk`: one byte write each (30_encoding.md R75). -/
def asmWbuf (a : HostExpr) (bs : List Byte) : List HostOp :=
  (List.range bs.length).map fun i => .wbuf a i (bs.getD i 0#8)

/-- The write of CMD that starts a command. -/
def asmIssue (i : Instr) : HostOp := .wreg 0x00 (.const (encode i))

/-- `NOP` (30_encoding.md R74). -/
def asmNop : List HostOp := [asmIssue .nop]

/-- `CRC start, count` (30_encoding.md R74). -/
def asmCrc (start count : HostExpr) : List HostOp := [.wreg 0x08 start, .wreg 0x0C count, asmIssue .crc]

/-- `RDBITS base, nbytes, sbit, width` (30_encoding.md R74). -/
def asmRdbits (base nbytes start width : HostExpr) : List HostOp :=
  [.wreg 0x08 base, .wreg 0x0C nbytes, .wreg 0x10 start, .wreg 0x14 width, asmIssue .rdbits]

/-- `SCANRST` (30_encoding.md R74). -/
def asmScanrst : List HostOp := [asmIssue .scanrst]

/-- `SCANSTEP` (30_encoding.md R74). -/
def asmScanstep : List HostOp := [asmIssue .scanstep]

/-- `SCANNEXT` (30_encoding.md R74). -/
def asmScannext : List HostOp := [asmIssue .scannext]

/-- `SETLEN n` (30_encoding.md R76). -/
def asmSetlen (n : HostExpr) : List HostOp := [.wreg 0x1C n]

/-- `DO cmd` (30_encoding.md R76). -/
def asmDo (cmd : List HostOp) : List HostOp := cmd ++ [.wait]

/-- `VERIFY start, count` (30_encoding.md R76). -/
def asmVerify (start count : HostExpr) : List HostOp := asmDo (asmCrc start count)

/-- `MSGNUM base, nbytes` (30_encoding.md R76). -/
def asmMsgnum (base nbytes : HostExpr) : List HostOp := asmRdbits base nbytes (.const 0#32) (.const 12#32)

/-- `SCANALL`, with the host's own statements that consume one frame (30_encoding.md R76). -/
def asmScanall (again done : HostLabel) (s : HostName) (consume : List HostOp) : List HostOp :=
  asmDo asmScanrst ++ [.label again] ++ asmDo asmScannext ++
    [.rreg 0x04 s, .ifGoto { lhs := .scanOutOf s, rel := .eq, rhs := .const 5#32 } done] ++
    consume ++ [.goto again, .label done]

/-! ### Expressions and conditions -/

/-- The value a name is bound to. -/
def lookupName : List (HostName × Word) → HostName → Option Word
  | [], _ => none
  | p :: ns, x => if p.1 = x then some p.2 else lookupName ns x

/-- Bind a name, over any earlier binding. -/
def bindName (ns : List (HostName × Word)) (x : HostName) (v : Word) : List (HostName × Word) :=
  (x, v) :: ns.filter fun p => p.1 ≠ x

/-- The value of an expression modulo 2^32, or the first name it uses that is unbound (30_encoding.md R75). -/
def evalExpr (ns : List (HostName × Word)) : HostExpr → Except HostName Word
  | .const v => .ok v
  | .name x =>
    match lookupName ns x with
    | some v => .ok v
    | none => .error x
  | .add e f =>
    match evalExpr ns e, evalExpr ns f with
    | .ok v, .ok w => .ok (v + w)
    | .error x, _ => .error x
    | .ok _, .error x => .error x
  | .sub e f =>
    match evalExpr ns e, evalExpr ns f with
    | .ok v, .ok w => .ok (v - w)
    | .error x, _ => .error x
    | .ok _, .error x => .error x
  | .mask e m =>
    match evalExpr ns e with
    | .ok v => .ok (v &&& m)
    | .error x => .error x

/-- The value of a term of a condition (30_encoding.md R75). -/
def evalTerm (ns : List (HostName × Word)) : HostTerm → Except HostName Word
  | .const v => .ok v
  | .name x => evalExpr ns (.name x)
  | .errOf x => (evalExpr ns (.name x)).map errField
  | .scanOutOf x => (evalExpr ns (.name x)).map scanOutField

/-- Whether a condition holds; `<` compares unsigned (30_encoding.md R75; log entry 11). -/
def evalCond (ns : List (HostName × Word)) (c : HostCond) : Except HostName Bool :=
  match evalTerm ns c.lhs, evalTerm ns c.rhs with
  | .ok v, .ok w =>
    .ok (match c.rel with
      | .eq => decide (v = w)
      | .ne => decide (v ≠ w)
      | .lt => decide (v.toNat < w.toNat))
  | .error x, _ => .error x
  | .ok _, .error x => .error x

/-- Where a label stands, counting statements from `k`.
A label placed twice means its first place, which is the model's choice (log entry 17); `programWf` rejects such a program. -/
def labelIndex : List HostOp → HostLabel → Nat → Option Nat
  | [], _, _ => none
  | o :: p, l, k => if o = .label l then some k else labelIndex p l (k + 1)

/-! ### One host statement -/

/-- The host goes on to the next statement, binding what a transaction returned. -/
def hostAdvance (x : Option HostName) (v : Option Word) (s : State) : State :=
  { s with host := { s.host with
      pc := s.host.pc + 1
      names := match x, v with
        | some n, some w => bindName s.host.names n w
        | _, _ => s.host.names } }

/-- Make a transaction, then go on. -/
def hostTransact (t : HostAccess) (x : Option HostName) (s : State) : Host.Outcome State Fault Refusal :=
  match hostAccess t s with
  | .ok (s', v) => .next (hostAdvance x v s')
  | .error f => .fault f

/-- Go to a label. -/
def hostJump (l : HostLabel) (s : State) : Host.Outcome State Fault Refusal :=
  match labelIndex s.host.prog l 0 with
  | some k => .next { s with host := { s.host with pc := k } }
  | none => .refused (.hostMissingLabel l)

/-- Go on with an evaluated expression. -/
def withExpr (e : HostExpr) (s : State) (k : Word → Host.Outcome State Fault Refusal) : Host.Outcome State Fault Refusal :=
  match evalExpr s.host.names e with
  | .ok v => k v
  | .error x => .refused (.hostUnboundName x)

/-- The meaning of one host statement (30_encoding.md R75). -/
def hostExec (o : HostOp) (s : State) : Host.Outcome State Fault Refusal :=
  match o with
  | .wreg off v => withExpr v s fun w => hostTransact (.regWrite off 32 w) none s
  | .rreg off x => hostTransact (.regRead off 32) (some x) s
  | .wbuf a i b => withExpr a s fun w => hostTransact (.bufWrite (w.toNat + i) b) none s
  | .rbuf a x => withExpr a s fun w => hostTransact (.bufRead w.toNat) (some x) s
  | .bus t x => hostTransact t x s
  | .letName x e => withExpr e s fun w => .next (hostAdvance (some x) (some w) s)
  | .wait =>
    match hostRegRead 0x04 32 s with
    | .ok v => if busyField v then .next s else .next (hostAdvance none none s)
    | .error f => .fault f
  | .label _ => .next (hostAdvance none none s)
  | .ifGoto c l =>
    match evalCond s.host.names c with
    | .ok true => hostJump l s
    | .ok false => .next (hostAdvance none none s)
    | .error x => .refused (.hostUnboundName x)
  | .goto l => hostJump l s
  | .halt => .next { s with host := { s.host with halted := true } }

/-- One step of the host agent. A host that has halted, or has no statement left, does nothing, and the block holds its state
(60_exceptions.md R138; log entry 13). -/
def hostStep (s : State) : Host.Outcome State Fault Refusal :=
  if s.host.halted then .next s
  else
    match s.host.prog[s.host.pc]? with
    | some o => hostExec o s
    | none => .next s

/-- A run is over when the host has executed `HALT` and no command is pending (60_exceptions.md R133). -/
def runOver (s : State) : Bool := s.host.halted && !s.pending

end Sys2Proof.Machine
end

