-- ==== Sys2Proof/Machine/Step.lean ====
section
/-! DEFINITION. One step of the whole machine: the engine or the host moves (00_scope.md R3, 20_memory.md R56). -/

namespace Sys2Proof.Machine

/-- One step. Each command and each host access is one atomic transition (20_memory.md R52, R56; log entry 14). -/
def step (s : State) : Host.Outcome State Fault Refusal :=
  if engineMoves s then engineStep (takeTurn s) else hostStep (takeTurn s)

/-- The state in which the very next step runs the command word `w`.
The block fetches nothing (10_state.md R22): a command comes from a host write of CMD, and this is the state right after one, with
the engine to move (log entry 4). -/
def State.withFetchWord (s : State) (nbits w : Nat) : State := captureWord (BitVec.ofNat 32 (w % 2 ^ nbits)) s

end Sys2Proof.Machine
end

