-- ==== Sys2Proof/WellFormed.lean ====
section
/-! DEFINITION. Which commands and which host programs are well formed. -/

namespace Sys2Proof

/-- A command is its opcode alone (30_encoding.md R62), so every term of `Instr` is well formed. -/
def Instr.wf : Instr → Bool
  | .nop => true
  | .crc => true
  | .rdbits => true
  | .scanrst => true
  | .scanstep => true
  | .scannext => true

namespace Machine

/-- The labels a host program places. -/
def placedLabels (p : List HostOp) : List HostLabel :=
  p.filterMap fun
    | .label l => some l
    | _ => none

/-- The labels a host program jumps to. -/
def targetLabels (p : List HostOp) : List HostLabel :=
  p.filterMap fun
    | .ifGoto _ l => some l
    | .goto l => some l
    | _ => none

/-- The names a host program binds by `RREG`, `RBUF` or `LET` (30_encoding.md R74, R75). -/
def boundNames (p : List HostOp) : List HostName :=
  p.filterMap fun
    | .rreg _ x => some x
    | .rbuf _ x => some x
    | .bus _ x => x
    | .letName x _ => some x
    | _ => none

/-- The names an expression uses. -/
def HostExpr.uses : HostExpr → List HostName
  | .const _ => []
  | .name x => [x]
  | .add e f => e.uses ++ f.uses
  | .sub e f => e.uses ++ f.uses
  | .mask e _ => e.uses

/-- The names a term of a condition uses. -/
def HostTerm.uses : HostTerm → List HostName
  | .const _ => []
  | .name x => [x]
  | .errOf x => [x]
  | .scanOutOf x => [x]

/-- The names a statement uses. -/
def HostOp.uses : HostOp → List HostName
  | .wreg _ v => v.uses
  | .rreg _ _ => []
  | .wbuf a _ _ => a.uses
  | .rbuf a _ => a.uses
  | .bus _ _ => []
  | .letName _ e => e.uses
  | .wait => []
  | .label _ => []
  | .ifGoto c _ => c.lhs.uses ++ c.rhs.uses
  | .goto _ => []
  | .halt => []

/-- No label stands at two places; the spec does not speak of one that does (log entry 17). -/
def labelsDistinct (p : List HostOp) : Bool := decide (placedLabels p).Nodup

/-- Every jump goes to a label that stands in the program. -/
def targetsPlaced (p : List HostOp) : Bool := (targetLabels p).all fun l => (placedLabels p).contains l

/-- Every name used is bound somewhere in the program (30_encoding.md R74). -/
def namesBound (p : List HostOp) : Bool := p.all fun o => o.uses.all fun x => (boundNames p).contains x

/-- A host program the assembler accepts (30_encoding.md R74, R75). -/
def programWf (p : List HostOp) : Bool := labelsDistinct p && targetsPlaced p && namesBound p

end Machine

end Sys2Proof
end

