-- ==== Sys2Proof/Safety.lean ====
section
/-! DEFINITION. What counts as a safe run, the invariant of the machine, and the notions its claims use. -/

namespace Sys2Proof.Machine

/-- A run from `s` records no fault, the premise of every claim about a run (60_exceptions.md R126). -/
def SafeRun (s : State) : Prop := ∀ k f, Host.Core.run Sys2Proof.core k s ≠ .fault f

/-- Every byte of `BUF[lo .. hi)` has been written since reset, the host's duty of 60_exceptions.md R132. -/
def Written (m : Memory) (lo hi : Nat) : Prop := ∀ a, lo ≤ a → a < hi → ∃ b, m.byteAt a = some b

/-- `BUF[a .. a + len(B))` holds the bytes `B`. -/
def Holds (m : Memory) (a : Nat) (B : List Byte) : Prop := ∀ k, k < B.length → m.byteAt (a + k) = B[k]?

/-- A valid frame of payload length `L` stands at offset `o` of the buffer `BUF[0 .. n)` (43_scanner.md R118, 30_encoding.md R69):
preamble, length field, all `L + 6` bytes present, and a checksum of 0 over them. -/
def ValidFrameAt (m : Memory) (n o L : Nat) : Prop :=
  o + (L + 6) ≤ n ∧ m.byteAt o = some Config.preamble ∧
    (∃ b1 b2, m.byteAt (o + 1) = some b1 ∧ m.byteAt (o + 2) = some b2 ∧ payloadLen b1 b2 = L) ∧
    ∃ B, B.length = L + 6 ∧ Holds m o B ∧ crc24q B = 0#24

/-- The three header bytes of a frame with reserved bits `rsv` and payload length `L` (30_encoding.md R69). -/
def headerOf (rsv : BitVec 6) (L : BitVec 10) : List Byte :=
  [Config.preamble, rsv ++ L.extractLsb' 8 2, L.extractLsb' 0 8]

/-- The trailer of a byte sequence: its checksum, most significant byte first (30_encoding.md R69, 20_memory.md R47). -/
def trailerOf (M : List Byte) : List Byte :=
  [(crc24q M).extractLsb' 16 8, (crc24q M).extractLsb' 8 8, (crc24q M).extractLsb' 0 8]

/-- The frame that carries a payload (30_encoding.md R68, R69). -/
def frameOf (rsv : BitVec 6) (P : List Byte) : List Byte :=
  headerOf rsv (BitVec.ofNat 10 P.length) ++ P ++ trailerOf (headerOf rsv (BitVec.ofNat 10 P.length) ++ P)

/-- A byte sequence with stream bit `i` inverted (00_scope.md R10). -/
def flipBit (B : List Byte) (i : Nat) : List Byte := B.modify (i / 8) fun b => b ^^^ (0x80#8 >>> (i % 8))

/-- The invariant of the machine: it holds at reset, and every step keeps it. -/
structure StateInv (s : State) : Prop where
  /-- The buffer memory is in canonical form. -/
  memWf : s.buf.wf
  /-- Only addresses below BUF_CAP are ever written (20_memory.md R51). -/
  memBelowCap : ∀ c ∈ s.buf, c.1 < Config.bufCap
  /-- LATCH is the word last written to CMD (10_state.md R39, 40_command_common.md R78). -/
  latchIsCmd : s.latch = s.cmd
  /-- CURSOR never exceeds BUF_CAP (10_state.md R22, R37). -/
  cursorBound : s.cursor.toNat ≤ Config.bufCap
  /-- The last emitted frame lies inside BUF (10_state.md R32, 43_scanner.md R118). -/
  frameInBuf : s.frameOff.toNat + (s.frameLen.toNat + 6) ≤ Config.bufCap
  /-- FRAME_LEN holds a 10-bit length (10_state.md R33). -/
  frameLenBound : s.frameLen.toNat ≤ 1023
  /-- Right after a FRAME outcome the cursor stands past the frame (43_scanner.md R113). -/
  cursorPastFrame : s.scanOut = .frame → s.cursor.toNat = s.frameOff.toNat + (s.frameLen.toNat + 6)
  /-- With no attempt since reset or SCANRST the scanner's registers are clear (10_state.md R27, 43_scanner.md R114). -/
  clearBeforeScan : s.scanOut = .noAttempt →
    s.cursor = 0#32 ∧ s.frameOff = 0#32 ∧ s.frameLen = 0#32 ∧ s.frameCount = 0#32
  /-- Only the low 24 bits of the CRC shift register are ever nonzero between commands (10_state.md R40, 41_checksum.md R93). -/
  crcBound : s.crcReg.toNat < 2 ^ 24

/-- Two states that differ at most in the CRC shift register and the bit-field accumulator (10_state.md R40, R41). -/
def SameVisible (s t : State) : Prop := t = { s with crcReg := t.crcReg, bitAcc := t.bitAcc }

/-- Two outcomes a host cannot tell apart. -/
def SameOutcome : Host.Outcome State Fault Refusal → Host.Outcome State Fault Refusal → Prop
  | .next s, .next t => SameVisible s t
  | .fault f, .fault g => f = g
  | .refused r, .refused q => r = q
  | _, _ => False

/-- `k` further SCANSTEP commands, each of which must leave a SKIP outcome behind to go on; the state after the last one. -/
def scanstepChain : Nat → State → Host.Outcome State Fault Refusal
  | 0, s => exec .scanstep s
  | k + 1, s =>
    match exec .scanstep s with
    | .next t => if t.scanOut = .frame ∨ t.scanOut = .atEnd then .next t else scanstepChain k t
    | .fault f => .fault f
    | .refused r => .refused r

end Sys2Proof.Machine
end

