-- ==== Sys2Proof/Certificates/Slice0/Obligations.lean ====
section
/-! DEFINITION. The statements for the provers, in the order of OBLIGATIONS.json. -/

open Sys2Proof
open Sys2Proof.Machine

/-! ### Encoding -/

/-- Decoding the word of a command gives the command back (30_encoding.md R63, R64). -/
def Obligations.DecodeReadsBackEncode : Prop := ∀ i : Instr, i.wf = true → decode (encode i) = .ok i

/-- The words of the opcode map decode to their commands (30_encoding.md R63). -/
def Obligations.OpcodeMapWordsDecode : Prop :=
  decode 0x00000000#32 = .ok .nop ∧ decode 0x00000001#32 = .ok .crc ∧ decode 0x00000002#32 = .ok .rdbits ∧
    decode 0x00000003#32 = .ok .scanrst ∧ decode 0x00000004#32 = .ok .scanstep ∧ decode 0x00000005#32 = .ok .scannext

/-- Over all 2^32 words, a word decodes to a command only if it is that command's whole word (30_encoding.md R64). -/
def Obligations.EachCommandHasExactlyOneWord : Prop :=
  ∀ (w : BitVec 32) (i : Instr), decode w = .ok i ↔ w = encode i

/-- Over all 2^32 words, the illegal ones are those with RSV != 0 or OP >= 6 (30_encoding.md R66). -/
def Obligations.IllegalWordsAreReservedOnes : Prop :=
  ∀ w : BitVec 32, (∃ e, decode w = .error e) ↔ (w.toNat / 16 ≠ 0 ∨ 6 ≤ w.toNat % 16)

/-! ### The step -/

/-- With a command pending and no host turn first, a step is the pending command's meaning, on the word in LATCH
(40_command_common.md R79, R85). The turn list is the model's own (log entry 3). -/
def Obligations.StepRunsTheDecodedCommand : Prop :=
  ∀ (s : State) (i : Instr), s.pending = true → s.turns.head? ≠ some .host → decode s.latch = .ok i →
    step s = exec i { s with turns := s.turns.tail }

/-- With no command pending, or with a host turn first, a step is the host agent's, and only a pending command uses up a turn.
The turn list is the model's own (log entry 3). -/
def Obligations.OtherwiseTheHostMoves : Prop :=
  (∀ s : State, s.pending = false → step s = hostStep s) ∧
  (∀ s : State, s.pending = true → s.turns.head? = some .host → step s = hostStep { s with turns := s.turns.tail })

/-- A reserved or malformed word in LATCH finishes with BAD_CMD and changes nothing else; CMD keeps the word
(40_command_common.md R87). -/
def Obligations.IllegalWordFinishesBadCmd : Prop :=
  ∀ s : State, (s.latch.toNat / 16 ≠ 0 ∨ 6 ≤ s.latch.toNat % 16) →
    engineStep s = .next { s with err := .badCmd, pending := false }

/-- A host write of CMD starts a command when none is pending, and is a hazard when one is; STATUS.BUSY reads 1 exactly while a
command is pending (40_command_common.md R78). -/
def Obligations.WriteOfCmdStartsACommand : Prop :=
  (∀ (s : State) (v : Word), s.pending = false →
    hostRegWrite 0x00 32 v s = .ok { s with cmd := v, latch := v, pending := true }) ∧
  (∀ (s : State) (v : Word), s.pending = true → hostRegWrite 0x00 32 v s = .error .hostHazard) ∧
  (∀ s : State, hostRegRead 0x04 32 s = .ok (statusWord s) ∧ (statusWord s).getLsbD 0 = s.pending)

/-- While the host only polls with `WAIT`, or has halted, nothing but turns is used up, and after at most as many steps as the turn
list holds the engine moves (40_command_common.md R79). The turn list is the model's own (log entry 3), and that a halted host does
nothing is the model's choice (log entry 13). -/
def Obligations.PollingHostLetsTheEngineMove : Prop :=
  ∀ s : State, s.pending = true → (s.host.halted = true ∨ s.host.prog[s.host.pc]? = some .wait) →
    ∃ k, k ≤ s.turns.length ∧ Host.Core.run Sys2Proof.core k s = .next { s with turns := s.turns.drop k } ∧
      engineMoves { s with turns := s.turns.drop k } = true

/-! ### The commands: results, completion and frame -/

/-- NOP writes ERR <- OK and nothing else, whatever BUF_LEN is (40_command_common.md R86). -/
def Obligations.NopSetsErrOkOnly : Prop :=
  decode 0x00000000#32 = .ok .nop ∧ ∀ s : State, exec .nop s = .next { s with err := .ok, pending := false }

/-- SCANRST clears the scanner's registers and nothing else, whatever BUF_LEN is (43_scanner.md R114). -/
def Obligations.ScanrstClearsTheScanner : Prop :=
  decode 0x00000003#32 = .ok .scanrst ∧ ∀ s : State, exec .scanrst s = .next { s with
    cursor := 0#32, frameOff := 0#32, frameLen := 0#32, frameCount := 0#32, scanOut := .noAttempt, err := .ok, pending := false }

/-- CRC: a window outside the buffer finishes with BAD_WINDOW and changes nothing else; a window of written bytes gives its checksum
in RESULT, and nothing else the host can see; and it faults UNINIT_READ exactly when both checks pass and a byte of the window is
unwritten (41_checksum.md R98). What is left in the CRC shift register is not said here (log entry 5). -/
def Obligations.CrcCommand : Prop :=
  decode 0x00000001#32 = .ok .crc ∧
  (∀ s : State, (Config.bufCap < s.bufLen.toNat ∨ s.bufLen.toNat < s.arg0.toNat + s.arg1.toNat) →
    exec .crc s = .next { s with err := .badWindow, pending := false }) ∧
  (∀ (s : State) (B : List Byte), s.bufLen.toNat ≤ Config.bufCap → s.arg0.toNat + s.arg1.toNat ≤ s.bufLen.toNat →
    B.length = s.arg1.toNat → Holds s.buf s.arg0.toNat B →
    ∃ r, exec .crc s = .next { s with result := (crc24q B).setWidth 32, crcReg := r, err := .ok, pending := false }) ∧
  (∀ s : State, exec .crc s = .fault .uninitRead ↔
    (s.bufLen.toNat ≤ Config.bufCap ∧ s.arg0.toNat + s.arg1.toNat ≤ s.bufLen.toNat ∧
      ∃ a, s.arg0.toNat ≤ a ∧ a < s.arg0.toNat + s.arg1.toNat ∧ s.buf.byteAt a = none))

/-- RDBITS: it reports the first error that applies in the fixed order and changes nothing else; otherwise it writes the field to
RESULT, and nothing else the host can see, needing of the window `W` only the bytes that hold the field; and it faults UNINIT_READ
exactly when every check passes and one of those bytes is unwritten (42_bitfield.md R105). What is left in the accumulator is not
said here (log entry 5). -/
def Obligations.RdbitsCommand : Prop :=
  decode 0x00000002#32 = .ok .rdbits ∧
  (∀ s : State, (Config.bufCap < s.bufLen.toNat ∨ s.bufLen.toNat < s.arg0.toNat + s.arg1.toNat) →
    exec .rdbits s = .next { s with err := .badWindow, pending := false }) ∧
  (∀ s : State, s.bufLen.toNat ≤ Config.bufCap → s.arg0.toNat + s.arg1.toNat ≤ s.bufLen.toNat → 32 < s.arg3.toNat →
    exec .rdbits s = .next { s with err := .badWidth, pending := false }) ∧
  (∀ s : State, s.bufLen.toNat ≤ Config.bufCap → s.arg0.toNat + s.arg1.toNat ≤ s.bufLen.toNat → s.arg3.toNat ≤ 32 →
    8 * s.arg1.toNat < s.arg2.toNat + s.arg3.toNat →
    exec .rdbits s = .next { s with err := .outOfRange, pending := false }) ∧
  (∀ (s : State) (W : List Byte), s.bufLen.toNat ≤ Config.bufCap → s.arg0.toNat + s.arg1.toNat ≤ s.bufLen.toNat →
    s.arg3.toNat ≤ 32 → s.arg2.toNat + s.arg3.toNat ≤ 8 * s.arg1.toNat → W.length = s.arg1.toNat →
    (∀ k, k < W.length → 0 < s.arg3.toNat → s.arg2.toNat / 8 ≤ k → k ≤ (s.arg2.toNat + s.arg3.toNat - 1) / 8 →
      s.buf.byteAt (s.arg0.toNat + k) = W[k]?) →
    ∃ r, exec .rdbits s = .next { s with
      result := BitVec.ofNat 32 (readbits W s.arg2.toNat s.arg3.toNat), bitAcc := r, err := .ok, pending := false }) ∧
  (∀ s : State, exec .rdbits s = .fault .uninitRead ↔
    (s.bufLen.toNat ≤ Config.bufCap ∧ s.arg0.toNat + s.arg1.toNat ≤ s.bufLen.toNat ∧ s.arg3.toNat ≤ 32 ∧
      s.arg2.toNat + s.arg3.toNat ≤ 8 * s.arg1.toNat ∧ 0 < s.arg3.toNat ∧
      ∃ a, s.arg0.toNat + s.arg2.toNat / 8 ≤ a ∧ a ≤ s.arg0.toNat + (s.arg2.toNat + s.arg3.toNat - 1) / 8 ∧
        s.buf.byteAt a = none))

/-- Every command that reads the buffer finishes with BAD_WINDOW when BUF_LEN > BUF_CAP (40_command_common.md R83). -/
def Obligations.LongBufLenIsRefused : Prop :=
  ∀ (s : State) (i : Instr), Config.bufCap < s.bufLen.toNat →
    (i = .crc ∨ i = .rdbits ∨ i = .scanstep ∨ i = .scannext) →
    exec i s = .next { s with err := .badWindow, pending := false }

/-- An attempt at or past the end reports END and leaves the cursor alone (43_scanner.md R108). -/
def Obligations.ScanstepAtTheEnd : Prop :=
  ∀ s : State, s.bufLen.toNat ≤ Config.bufCap → s.bufLen.toNat ≤ s.cursor.toNat →
    exec .scanstep s = .next { s with scanOut := .atEnd, err := .ok, pending := false }

/-- An attempt at a byte that is not the preamble moves the cursor by exactly 1 (43_scanner.md R109). -/
def Obligations.ScanstepSkipsAWrongPreamble : Prop :=
  ∀ (s : State) (b : Byte), s.bufLen.toNat ≤ Config.bufCap → s.cursor.toNat < s.bufLen.toNat →
    s.buf.byteAt s.cursor.toNat = some b → b ≠ 0xD3#8 →
    exec .scanstep s = .next { s with cursor := s.cursor + 1#32, scanOut := .skipPreamble, err := .ok, pending := false }

/-- A preamble with too few bytes left for the header is skipped, and no byte past it is read (43_scanner.md R110). -/
def Obligations.ScanstepSkipsAMissingHeader : Prop :=
  ∀ s : State, s.bufLen.toNat ≤ Config.bufCap → s.cursor.toNat < s.bufLen.toNat → s.bufLen.toNat < s.cursor.toNat + 3 →
    s.buf.byteAt s.cursor.toNat = some 0xD3#8 →
    exec .scanstep s = .next { s with cursor := s.cursor + 1#32, scanOut := .skipShort, err := .ok, pending := false }

/-- A candidate with too few bytes left for the frame its masked length asks for is skipped (43_scanner.md R111). -/
def Obligations.ScanstepSkipsAnIncompleteFrame : Prop :=
  ∀ (s : State) (b1 b2 : Byte), s.bufLen.toNat ≤ Config.bufCap → s.cursor.toNat + 3 ≤ s.bufLen.toNat →
    s.buf.byteAt s.cursor.toNat = some 0xD3#8 → s.buf.byteAt (s.cursor.toNat + 1) = some b1 →
    s.buf.byteAt (s.cursor.toNat + 2) = some b2 →
    s.bufLen.toNat < s.cursor.toNat + ((b1.toNat * 256 + b2.toNat) % 1024 + 6) →
    exec .scanstep s = .next { s with cursor := s.cursor + 1#32, scanOut := .skipShort, err := .ok, pending := false }

/-- A complete candidate whose checksum over all `L + 6` bytes is nonzero moves the cursor by exactly 1 (43_scanner.md R112).
What is left in the CRC shift register is not said here (log entry 5). -/
def Obligations.ScanstepSkipsABadChecksum : Prop :=
  ∀ (s : State) (b1 b2 : Byte) (B : List Byte), s.bufLen.toNat ≤ Config.bufCap →
    B.length = (b1.toNat * 256 + b2.toNat) % 1024 + 6 → s.cursor.toNat + B.length ≤ s.bufLen.toNat →
    Holds s.buf s.cursor.toNat B → B[0]? = some 0xD3#8 → B[1]? = some b1 → B[2]? = some b2 → crc24q B ≠ 0#24 →
    ∃ r, exec .scanstep s = .next { s with
      cursor := s.cursor + 1#32, scanOut := .skipCrc, crcReg := r, err := .ok, pending := false }

/-- A valid frame at the cursor is emitted: its payload is `BUF[o+3 .. o+3+L)`, its length `L`, and the cursor moves to the first
byte after its trailer, `o + L + 6` (43_scanner.md R113). What is left in the CRC shift register is not said here (log entry 5). -/
def Obligations.ScanstepEmitsAValidFrame : Prop :=
  ∀ (s : State) (L : Nat), s.bufLen.toNat ≤ Config.bufCap → ValidFrameAt s.buf s.bufLen.toNat s.cursor.toNat L →
    ∃ r t P, t = { s with
        frameOff := s.cursor, frameLen := BitVec.ofNat 32 L, frameCount := s.frameCount + 1#32,
        cursor := s.cursor + BitVec.ofNat 32 (L + 6), scanOut := .frame, crcReg := r, err := .ok, pending := false } ∧
      exec .scanstep s = .next t ∧ framePayload t = some P ∧ P.length = L ∧ Holds s.buf (s.cursor.toNat + 3) P

/-- SCANNEXT is SCANSTEP repeated until FRAME or END, at most `max(BUF_LEN - CURSOR, 0) + 1` times, in every state
(43_scanner.md R116, 40_command_common.md R80). -/
def Obligations.ScannextIsRepeatedScanstep : Prop :=
  ∀ s : State, exec .scannext s = scanstepChain (s.bufLen.toNat - s.cursor.toNat) s

/-- SCANNEXT emits the first valid frame at or after the cursor (43_scanner.md R116, R118, R119). -/
def Obligations.ScannextEmitsTheFirstValidFrame : Prop :=
  ∀ (s : State) (p L : Nat), s.bufLen.toNat ≤ Config.bufCap → Written s.buf s.cursor.toNat s.bufLen.toNat →
    s.cursor.toNat ≤ p → ValidFrameAt s.buf s.bufLen.toNat p L →
    (∀ q K, s.cursor.toNat ≤ q → q < p → ¬ ValidFrameAt s.buf s.bufLen.toNat q K) →
    ∃ r, exec .scannext s = .next { s with
      frameOff := BitVec.ofNat 32 p, frameLen := BitVec.ofNat 32 L, frameCount := s.frameCount + 1#32,
      cursor := BitVec.ofNat 32 (p + L + 6), scanOut := .frame, crcReg := r, err := .ok, pending := false }

/-- With no valid frame at or after the cursor SCANNEXT ends at the end of the buffer and leaves the last frame's registers in
place (43_scanner.md R116). -/
def Obligations.ScannextWithoutAFrameEnds : Prop :=
  ∀ s : State, s.bufLen.toNat ≤ Config.bufCap → Written s.buf s.cursor.toNat s.bufLen.toNat →
    (∀ q K, s.cursor.toNat ≤ q → ¬ ValidFrameAt s.buf s.bufLen.toNat q K) →
    ∃ r, exec .scannext s = .next { s with
      cursor := BitVec.ofNat 32 (max s.cursor.toNat s.bufLen.toNat), scanOut := .atEnd, crcReg := r, err := .ok, pending := false }

/-- With no byte 0xD3 from the cursor on, SCANNEXT ends with no frame, having computed no checksum (43_scanner.md R116, R120). -/
def Obligations.NoPreambleNoFrame : Prop :=
  ∀ s : State, s.bufLen.toNat ≤ Config.bufCap →
    (∀ a, s.cursor.toNat ≤ a → a < s.bufLen.toNat → ∃ b, s.buf.byteAt a = some b ∧ b ≠ 0xD3#8) →
    exec .scannext s = .next { s with
      cursor := BitVec.ofNat 32 (max s.cursor.toNat s.bufLen.toNat), scanOut := .atEnd, err := .ok, pending := false }

/-- A frame built for a payload, whatever its reserved bits, is emitted with that payload and its length
(43_scanner.md R113, 30_encoding.md R69, R72). -/
def Obligations.BuiltFrameIsEmittedWithItsPayload : Prop :=
  ∀ (s : State) (rsv : BitVec 6) (P : List Byte), P.length ≤ 1023 → s.bufLen.toNat ≤ Config.bufCap →
    s.cursor.toNat + (P.length + 6) ≤ s.bufLen.toNat → Holds s.buf s.cursor.toNat (frameOf rsv P) →
    ∃ t, exec .scanstep s = .next t ∧ t.scanOut = .frame ∧ t.frameOff = s.cursor ∧ t.frameLen = BitVec.ofNat 32 P.length ∧
      t.cursor.toNat = s.cursor.toNat + (P.length + 6) ∧ framePayload t = some P

/-- A scanner command that succeeds moves the cursor forward, to at most BUF_LEN, from below BUF_LEN, and leaves it alone from
there on (43_scanner.md R117). -/
def Obligations.CursorMovesForwardWithinTheBuffer : Prop :=
  ∀ (s t : State) (i : Instr), (i = .scanstep ∨ i = .scannext) → exec i s = .next t → t.err = .ok →
    (s.cursor.toNat < s.bufLen.toNat → s.cursor.toNat + 1 ≤ t.cursor.toNat ∧ t.cursor.toNat ≤ s.bufLen.toNat) ∧
    (s.bufLen.toNat ≤ s.cursor.toNat → t.cursor = s.cursor)

/-- Every frame a scanner command emits is a valid frame at or after the old cursor (43_scanner.md R118). -/
def Obligations.EmittedFramesAreValid : Prop :=
  ∀ (s t : State) (i : Instr), (i = .scanstep ∨ i = .scannext) → exec i s = .next t → t.err = .ok → t.scanOut = .frame →
    s.cursor.toNat ≤ t.frameOff.toNat ∧ ValidFrameAt s.buf s.bufLen.toNat t.frameOff.toNat t.frameLen.toNat ∧
    t.cursor.toNat = t.frameOff.toNat + t.frameLen.toNat + 6

/-- A scanner command over written bytes completes with ERR = OK (43_scanner.md R115, R116, 20_memory.md R49). -/
def Obligations.ScanOverWrittenBytesCompletes : Prop :=
  ∀ (s : State) (i : Instr), (i = .scanstep ∨ i = .scannext) → s.bufLen.toNat ≤ Config.bufCap →
    Written s.buf s.cursor.toNat s.bufLen.toNat → ∃ t, exec i s = .next t ∧ t.err = .ok ∧ t.pending = false

/-! ### Rules about every command -/

/-- A command that fails, an illegal word among them, leaves the state as it was before but for ERR and BUSY
(60_exceptions.md R129). -/
def Obligations.FailingCommandChangesOnlyErrAndBusy : Prop :=
  ∀ s t : State, engineStep s = .next t → t.err ≠ .ok → t = { s with err := t.err, pending := false }

/-- The frame of every command: what none of them writes, what only some of them write, and that BUF reads as before
(10_state.md R44); on an error only STATUS. The two internal registers (R40, R41) are not spoken of. -/
def Obligations.CommandsWriteOnlyTheirListedState : Prop :=
  ∀ (s t : State) (i : Instr), exec i s = .next t →
    t.pending = false ∧ t.cmd = s.cmd ∧ t.latch = s.latch ∧
    t.arg0 = s.arg0 ∧ t.arg1 = s.arg1 ∧ t.arg2 = s.arg2 ∧ t.arg3 = s.arg3 ∧ t.bufLen = s.bufLen ∧
    (∀ a, t.buf.byteAt a = s.buf.byteAt a) ∧ t.host = s.host ∧ t.turns = s.turns ∧
    (i ≠ .crc → i ≠ .rdbits → t.result = s.result) ∧
    (i ≠ .scanrst → i ≠ .scanstep → i ≠ .scannext → t.cursor = s.cursor ∧ t.scanOut = s.scanOut) ∧
    (t.err ≠ .ok → t.result = s.result ∧ t.cursor = s.cursor ∧ t.scanOut = s.scanOut) ∧
    (i ≠ .scanrst → t.scanOut ≠ .frame ∨ t.err ≠ .ok ∨ (i ≠ .scanstep ∧ i ≠ .scannext) →
      t.frameOff = s.frameOff ∧ t.frameLen = s.frameLen ∧ t.frameCount = s.frameCount)

/-- A command stops only by reading an unwritten byte of the buffer, after every check has passed, and is never refused; and
SCANSTEP stops exactly when one of the bytes its attempt reads is unwritten: the byte at the cursor; after a preamble with room for
the header, a length byte; after a length with room for the frame, a byte of the candidate
(20_memory.md R49, R50, 60_exceptions.md R128). SCANNEXT stops where its attempts do (`ScannextIsRepeatedScanstep`). -/
def Obligations.OnlyAnUnwrittenByteStopsACommand : Prop :=
  (∀ (s : State) (i : Instr) (f : Fault), exec i s = .fault f →
    f = .uninitRead ∧ s.bufLen.toNat ≤ Config.bufCap ∧ ∃ a, a < s.bufLen.toNat ∧ s.buf.byteAt a = none) ∧
  (∀ (s : State) (i : Instr) (r : Refusal), exec i s ≠ .refused r) ∧
  (∀ s : State, exec .scanstep s = .fault .uninitRead ↔
    (s.bufLen.toNat ≤ Config.bufCap ∧ s.cursor.toNat < s.bufLen.toNat ∧
      (s.buf.byteAt s.cursor.toNat = none ∨
       (s.buf.byteAt s.cursor.toNat = some 0xD3#8 ∧ s.cursor.toNat + 3 ≤ s.bufLen.toNat ∧
         (s.buf.byteAt (s.cursor.toNat + 1) = none ∨ s.buf.byteAt (s.cursor.toNat + 2) = none ∨
          ∃ b1 b2, s.buf.byteAt (s.cursor.toNat + 1) = some b1 ∧ s.buf.byteAt (s.cursor.toNat + 2) = some b2 ∧
            s.cursor.toNat + ((b1.toNat * 256 + b2.toNat) % 1024 + 6) ≤ s.bufLen.toNat ∧
            ∃ a, s.cursor.toNat ≤ a ∧ a < s.cursor.toNat + ((b1.toNat * 256 + b2.toNat) % 1024 + 6) ∧
              s.buf.byteAt a = none)))))

/-- Every step keeps the invariant (log entry 6 for its one clause about a reset value the spec leaves open). -/
def Obligations.EveryStepKeepsTheInvariant : Prop := ∀ s t : State, StateInv s → step s = .next t → StateInv t

/-- The invariant holds at reset. -/
def Obligations.ResetMeetsTheInvariant : Prop := StateInv State.reset

/-- What stands in the CRC shift register and in the bit-field accumulator between commands can never be seen: two states that
differ only there step to outcomes that differ only there (10_state.md R40, R41). -/
def Obligations.InternalRegistersAreUnobservable : Prop :=
  ∀ s t : State, SameVisible s t → SameOutcome (step s) (step t)

/-! ### The checksum -/

/-- The checksum of no byte is 0 (41_checksum.md R92). -/
def Obligations.ChecksumOfNothingIsZero : Prop := crc24q [] = 0#24

/-- The shift register holds no bit above bit 23 after any round, so its low 24 bits are all of it (41_checksum.md R93). -/
def Obligations.CrcRegisterHolds24Bits : Prop :=
  (∀ r : Word, r.toNat < 2 ^ 24 → (crcRound r).toNat < 2 ^ 24) ∧
  (∀ (r : Word) (b : Byte), r.toNat < 2 ^ 24 → (crcByte r b).toNat < 2 ^ 24) ∧
  (∀ B : List Byte, (crcRegister B).toNat = (crc24q B).toNat)

/-- The checksum is linear, and leading zero bytes do not change it (41_checksum.md R95). -/
def Obligations.ChecksumIsLinear : Prop :=
  (∀ A B : List Byte, A.length = B.length → crc24q (List.zipWith (· ^^^ ·) A B) = crc24q A ^^^ crc24q B) ∧
  (∀ B : List Byte, crc24q (0x00#8 :: B) = crc24q B)

/-- Appending a checksum most significant byte first leaves residue 0 (41_checksum.md R96). -/
def Obligations.AppendedChecksumLeavesZeroResidue : Prop :=
  ∀ M : List Byte, crc24q (M ++
    [(crc24q M).extractLsb' 16 8, (crc24q M).extractLsb' 8 8, (crc24q M).extractLsb' 0 8]) = 0#24

/-- Inverting any one bit of a byte sequence whose checksum is 0 makes it nonzero (41_checksum.md R97). -/
def Obligations.SingleBitFlipIsDetected : Prop :=
  ∀ (B : List Byte) (i : Nat), crc24q B = 0#24 → i < 8 * B.length → crc24q (flipBit B i) ≠ 0#24

/-- Changing any one byte of a byte sequence whose checksum is 0 makes it nonzero (43_scanner.md R121). -/
def Obligations.OneByteChangeIsDetected : Prop :=
  ∀ (A C : List Byte) (b c : Byte), b ≠ c → crc24q (A ++ b :: C) = 0#24 → crc24q (A ++ c :: C) ≠ 0#24

/-- The checksum is `(M(x) * x^24) mod P(x)` over GF(2) (41_checksum.md R94). -/
def Obligations.ChecksumIsThePolynomialRemainder : Prop :=
  ∀ B : List Byte,
    (∑ i ∈ Finset.range 24, Polynomial.monomial i (if (crc24q B).getLsbD i then (1 : ZMod 2) else 0)) =
    ((∑ i ∈ Finset.range (8 * B.length), Polynomial.monomial (8 * B.length - 1 - i) ((sbit B i : Nat) : ZMod 2)) *
        Polynomial.X ^ 24) %ₘ
      (∑ i ∈ Finset.range 25, Polynomial.monomial i (if (0x1864CFB : Nat).testBit i then (1 : ZMod 2) else 0))

/-! ### The bit reader and the length field -/

/-- A field is the weighted sum of its stream bits, and fits its width (42_bitfield.md R100). -/
def Obligations.FieldIsTheSumOfItsBits : Prop :=
  ∀ (B : List Byte) (s n : Nat), s + n ≤ 8 * B.length →
    readbits B s n = ∑ k ∈ Finset.range n, sbit B (s + k) * 2 ^ (n - 1 - k) ∧ readbits B s n < 2 ^ n

/-- The barrel shifter gives the field the bit loop gives (42_bitfield.md R104). -/
def Obligations.BarrelShifterGivesTheField : Prop :=
  ∀ (B : List Byte) (s n : Nat), 1 ≤ n → s + n ≤ 8 * B.length → barrelShift B s n = readbits B s n

/-- A field splits into two fields, and an aligned field of 8 bits is a byte (42_bitfield.md R104). -/
def Obligations.FieldsSplitAndAlignedFieldsAreBytes : Prop :=
  (∀ (B : List Byte) (s a b : Nat), s + (a + b) ≤ 8 * B.length →
    readbits B s (a + b) = (readbits B s a <<< b) ||| readbits B (s + a) b) ∧
  (∀ (B : List Byte) (j : Nat) (v : Byte), B[j]? = some v → readbits B (8 * j) 8 = v.toNat)

/-- The payload length of a header is its stream bits 14 to 23, whatever the reserved bits are (30_encoding.md R70, R72). -/
def Obligations.LengthIsHeaderBits14To23 : Prop :=
  ∀ b0 b1 b2 : Byte, payloadLen b1 b2 = readbits [b0, b1, b2] 14 10 ∧
    payloadLen b1 b2 = (b1.toNat % 4) * 256 + b2.toNat

/-! ### The host interface -/

/-- The fields of STATUS (10_state.md R25), with their codes (R26, R27). -/
def Obligations.StatusFieldsAreLaidOut : Prop :=
  ∀ s : State, (statusWord s).toNat =
    (if s.pending then 1 else 0) +
    16 * (match s.err with | .ok => 0 | .outOfRange => 1 | .badWindow => 2 | .badWidth => 3 | .badCmd => 4) +
    256 * (match s.scanOut with
      | .noAttempt => 0 | .frame => 1 | .skipPreamble => 2 | .skipShort => 3 | .skipCrc => 4 | .atEnd => 5)

/-- What each offset of the register map reads when the block is idle (10_state.md R23). -/
def Obligations.RegisterMapReads : Prop :=
  ∀ s : State, s.pending = false →
    hostRegRead 0x00 32 s = .ok s.cmd ∧ hostRegRead 0x04 32 s = .ok (statusWord s) ∧
    hostRegRead 0x08 32 s = .ok s.arg0 ∧ hostRegRead 0x0C 32 s = .ok s.arg1 ∧
    hostRegRead 0x10 32 s = .ok s.arg2 ∧ hostRegRead 0x14 32 s = .ok s.arg3 ∧
    hostRegRead 0x18 32 s = .ok s.result ∧ hostRegRead 0x1C 32 s = .ok s.bufLen ∧
    hostRegRead 0x20 32 s = .ok s.cursor ∧ hostRegRead 0x24 32 s = .ok s.frameOff ∧
    hostRegRead 0x28 32 s = .ok s.frameLen ∧ hostRegRead 0x2C 32 s = .ok s.frameCount

/-- CAPS is a constant: it reads BUF_CAP, which lies in its allowed range and fits the register, and a write of it is ignored
(10_state.md R35, 00_scope.md R7). -/
def Obligations.CapsReadsTheCapacity : Prop :=
  1029 ≤ Config.bufCap ∧ Config.bufCap ≤ 2 ^ 29 ∧
  ∀ (s : State) (v : Word), s.pending = false →
    (∃ w, hostRegRead 0x30 32 s = .ok w ∧ w.toNat = Config.bufCap) ∧ hostRegWrite 0x30 32 v s = .ok s

/-- A write of a read-only register is ignored; a write of a read-write one stores all 32 bits; a write of CMD also starts a
command (10_state.md R36, 40_command_common.md R78). -/
def Obligations.RegisterWritesFollowTheirAccess : Prop :=
  ∀ (s : State) (v : Word), s.pending = false →
    (∀ off ∈ [0x04, 0x18, 0x20, 0x24, 0x28, 0x2C, 0x30], hostRegWrite off 32 v s = .ok s) ∧
    hostRegWrite 0x00 32 v s = .ok { s with cmd := v, latch := v, pending := true } ∧
    hostRegWrite 0x08 32 v s = .ok { s with arg0 := v } ∧ hostRegWrite 0x0C 32 v s = .ok { s with arg1 := v } ∧
    hostRegWrite 0x10 32 v s = .ok { s with arg2 := v } ∧ hostRegWrite 0x14 32 v s = .ok { s with arg3 := v } ∧
    hostRegWrite 0x1C 32 v s = .ok { s with bufLen := v }

/-- A register access to an idle block faults exactly when it is unaligned, above the map, or not 32 bits wide
(10_state.md R37). -/
def Obligations.BadRegisterAccessFaults : Prop :=
  ∀ (s : State) (off bits : Nat) (v : Word), s.pending = false →
    ((hostRegRead off bits s = .error .hostBadAccess ↔ (off % 4 ≠ 0 ∨ 0x30 < off ∨ bits ≠ 32)) ∧
     (hostRegWrite off bits v s = .error .hostBadAccess ↔ (off % 4 ≠ 0 ∨ 0x30 < off ∨ bits ≠ 32)))

/-- While a command is pending every access but a read of STATUS is a hazard, and STATUS reads with BUSY = 1
(70_reset_and_hazards.md R144). That an access that is bad as well, or that reads an unwritten byte, is a hazard and not that other
fault is the model's choice, and so is a read of STATUS of another width than 32 bits (log entry 9). -/
def Obligations.BusyHazard : Prop :=
  ∀ s : State, s.pending = true →
    (∀ off bits v, hostRegWrite off bits v s = .error .hostHazard) ∧
    (∀ a v, hostBufWrite a v s = .error .hostHazard) ∧ (∀ a, hostBufRead a s = .error .hostHazard) ∧
    (∀ off bits, ¬ (off = 0x04 ∧ bits = 32) → hostRegRead off bits s = .error .hostHazard) ∧
    (hostRegRead 0x04 32 s = .ok (statusWord s) ∧ (statusWord s).getLsbD 0 = true)

/-- Buffer accesses to an idle block: a write below BUF_CAP changes that byte alone, a read gives the byte last written, a read of
an unwritten byte faults, and an access at or above BUF_CAP faults (20_memory.md R49, R51, 60_exceptions.md R132). -/
def Obligations.BufferAccesses : Prop :=
  ∀ (s : State) (a : Nat), s.pending = false →
    (a < Config.bufCap → ∀ v, ∃ m, hostBufWrite a v s = .ok { s with buf := m } ∧ m.byteAt a = some v ∧
      ∀ b, b ≠ a → m.byteAt b = s.buf.byteAt b) ∧
    (a < Config.bufCap → ∀ v, s.buf.byteAt a = some v → hostBufRead a s = .ok v) ∧
    (a < Config.bufCap → s.buf.byteAt a = none → hostBufRead a s = .error .uninitRead) ∧
    (Config.bufCap ≤ a → (∀ v, hostBufWrite a v s = .error .hostBadAccess) ∧ hostBufRead a s = .error .hostBadAccess)

/-- Writing a value a location already holds changes nothing, but for CMD (20_memory.md R53). -/
def Obligations.RewritingAHeldValueChangesNothing : Prop :=
  (∀ (s : State) (a : Nat) (v : Byte), StateInv s → s.pending = false → s.buf.byteAt a = some v → hostBufWrite a v s = .ok s) ∧
  (∀ (s : State) (off : Nat) (v : Word), s.pending = false → off ≠ 0x00 → hostRegRead off 32 s = .ok v →
    hostRegWrite off 32 v s = .ok s)

/-- Reset at any time, a command pending or not, gives every register and internal field its reset value and leaves every byte of
BUF unwritten (70_reset_and_hazards.md R139, R140). The host agent and the turn list lie outside the block (log entries 2, 3). -/
def Obligations.ResetAtAnyTime : Prop :=
  ∀ s : State, ∃ t, hostAccess .reset s = .ok (t, none) ∧ t = { State.reset with host := s.host, turns := s.turns } ∧
    ∀ a, t.buf.byteAt a = none

/-- The reset value of every register and field the spec gives one, and that a reset abandons a pending command (10_state.md R43). -/
def Obligations.ResetValues : Prop :=
  let s := State.reset
  s.cmd = 0#32 ∧ statusWord s = 0#32 ∧ s.arg0 = 0#32 ∧ s.arg1 = 0#32 ∧ s.arg2 = 0#32 ∧ s.arg3 = 0#32 ∧
    s.result = 0#32 ∧ s.bufLen = 0#32 ∧ s.cursor = 0#32 ∧ s.frameOff = 0#32 ∧ s.frameLen = 0#32 ∧ s.frameCount = 0#32 ∧
    hostRegRead 0x30 32 s = .ok (BitVec.ofNat 32 Config.bufCap) ∧ s.pending = false ∧ s.latch = 0#32 ∧
    (∀ a, s.buf.byteAt a = none) ∧
    ∀ u : State, ∃ t, hostAccess .reset u = .ok (t, none) ∧ t.pending = false ∧ t.result = 0#32 ∧ statusWord t = 0#32 ∧
      t.cursor = 0#32 ∧ t.frameOff = 0#32 ∧ t.frameLen = 0#32 ∧ t.frameCount = 0#32

/-- The host's transactions as steps of an idle block: `WREG`, `RREG`, `WBUF` of a byte and `RBUF` make their transaction on the
values of their expressions, bind what it returns, and go on (30_encoding.md R75). -/
def Obligations.HostStatementsMakeTheirTransactions : Prop :=
  ∀ s : State, s.pending = false → s.host.halted = false →
    (∀ off e v t, s.host.prog[s.host.pc]? = some (.wreg off e) → evalExpr s.host.names e = .ok v →
      hostRegWrite off 32 v s = .ok t →
      step s = .next { t with host := { s.host with pc := s.host.pc + 1 } }) ∧
    (∀ off x v, s.host.prog[s.host.pc]? = some (.rreg off x) → hostRegRead off 32 s = .ok v →
      ∃ ns, step s = .next { s with host := { s.host with pc := s.host.pc + 1, names := ns } } ∧ lookupName ns x = some v ∧
        ∀ y, y ≠ x → lookupName ns y = lookupName s.host.names y) ∧
    (∀ e a i b t, s.host.prog[s.host.pc]? = some (.wbuf e i b) → evalExpr s.host.names e = .ok a →
      hostBufWrite (a.toNat + i) b s = .ok t →
      step s = .next { t with host := { s.host with pc := s.host.pc + 1 } }) ∧
    (∀ e a x v, s.host.prog[s.host.pc]? = some (.rbuf e x) → evalExpr s.host.names e = .ok a → hostBufRead a.toNat s = .ok v →
      ∃ ns, step s = .next { s with host := { s.host with pc := s.host.pc + 1, names := ns } } ∧
        lookupName ns x = some (v.setWidth 32) ∧ ∀ y, y ≠ x → lookupName ns y = lookupName s.host.names y)

/-- The host's own statements as steps of an idle block touch the host alone: `LET` binds its value modulo 2^32, `WAIT` goes on,
`IF` and `GOTO` go to their label or go on, and after `HALT` the run is over (30_encoding.md R75, 60_exceptions.md R133). -/
def Obligations.HostControlTouchesTheHostAlone : Prop :=
  ∀ s : State, s.pending = false → s.host.halted = false →
    (∀ x e v, s.host.prog[s.host.pc]? = some (.letName x e) → evalExpr s.host.names e = .ok v →
      ∃ ns, step s = .next { s with host := { s.host with pc := s.host.pc + 1, names := ns } } ∧ lookupName ns x = some v ∧
        ∀ y, y ≠ x → lookupName ns y = lookupName s.host.names y) ∧
    (s.host.prog[s.host.pc]? = some .wait → step s = .next { s with host := { s.host with pc := s.host.pc + 1 } }) ∧
    (∀ l k, s.host.prog[s.host.pc]? = some (.goto l) → labelIndex s.host.prog l 0 = some k →
      step s = .next { s with host := { s.host with pc := k } }) ∧
    (∀ c l k, s.host.prog[s.host.pc]? = some (.ifGoto c l) → evalCond s.host.names c = .ok true →
      labelIndex s.host.prog l 0 = some k → step s = .next { s with host := { s.host with pc := k } }) ∧
    (∀ c l, s.host.prog[s.host.pc]? = some (.ifGoto c l) → evalCond s.host.names c = .ok false →
      step s = .next { s with host := { s.host with pc := s.host.pc + 1 } }) ∧
    (s.host.prog[s.host.pc]? = some .halt →
      step s = .next { s with host := { s.host with halted := true } } ∧ runOver { s with host := { s.host with halted := true } } = true)

/-- With an illegal word pending and no host turn first, a step finishes it with BAD_CMD and changes nothing else but the turn used up
(40_command_common.md R79, R85, R87). The turn list is the model's own (log entry 3). -/
def Obligations.StepOnAnIllegalWordFinishesBadCmd : Prop :=
  ∀ s : State, s.pending = true → s.turns.head? ≠ some .host → (s.latch.toNat / 16 ≠ 0 ∨ 6 ≤ s.latch.toNat % 16) →
    step s = .next { s with turns := s.turns.tail, err := .badCmd, pending := false }
end

