-- ==== Sys2Proof/Laws/Ops.lean ====
section
/-! SUPPORT. What the shared operations do: buffer memory, MemRead and the common checks. -/

namespace Sys2Proof.Machine

/-! ### Buffer memory -/

@[simp] theorem Memory.byteAt_nil (a : Nat) : Memory.byteAt [] a = none := rfl

@[simp] theorem Memory.byteAt_cons (c : Host.Cell) (m : Memory) (a : Nat) :
    Memory.byteAt (c :: m) a = if c.1 = a then some c.2 else Memory.byteAt m a := rfl

/-- A read after a write to the same address gives the byte written. -/
theorem Memory.byteAt_write_same (m : Memory) (a : Nat) (v : Byte) : (m.write a v).byteAt a = some v := by
  induction m with
  | nil => simp [Memory.write]
  | cons c m ih =>
    unfold Memory.write
    split
    · simp
    · split
      · simp
      · rename_i _ h
        simp [h, ih]

/-- A write leaves every other address alone. -/
theorem Memory.byteAt_write_other (m : Memory) {a b : Nat} (v : Byte) (h : b ≠ a) : (m.write a v).byteAt b = m.byteAt b := by
  induction m with
  | nil => simp [Memory.write, h.symm]
  | cons c m ih =>
    unfold Memory.write
    split
    · simp [h.symm]
    · split
      · rename_i _ hc
        simp [hc, h.symm]
      · simp [ih]

/-- What one write can list: the new cell, or a cell listed before. -/
theorem Memory.mem_write {m : Memory} {a : Nat} {v : Byte} {x : Host.Cell} (h : x ∈ m.write a v) : x = (a, v) ∨ x ∈ m := by
  induction m with
  | nil => simpa [Memory.write] using h
  | cons c m ih =>
    unfold Memory.write at h
    split at h
    · simpa using h
    · split at h
      · rcases List.mem_cons.1 h with h | h
        · exact .inl h
        · exact .inr (List.mem_cons_of_mem _ h)
      · rcases List.mem_cons.1 h with h | h
        · exact .inr (by simp [h])
        · exact (ih h).imp id (List.mem_cons_of_mem _)

/-- A write keeps the canonical form. -/
theorem Memory.wf_write {m : Memory} (a : Nat) (v : Byte) (h : m.wf) : (m.write a v).wf := by
  induction m with
  | nil => simp [Memory.write, Memory.wf]
  | cons c m ih =>
    obtain ⟨hc, hm⟩ := List.pairwise_cons.1 h
    unfold Memory.write
    split
    · rename_i ha
      refine List.pairwise_cons.2 ⟨fun y hy => ?_, h⟩
      rcases List.mem_cons.1 hy with rfl | hy
      · exact ha
      · exact Nat.lt_trans ha (hc y hy)
    · split
      · rename_i _ heq
        exact List.pairwise_cons.2 ⟨fun y hy => heq ▸ hc y hy, hm⟩
      · rename_i h1 h2
        refine List.pairwise_cons.2 ⟨fun y hy => ?_, ih hm⟩
        rcases Memory.mem_write hy with rfl | hy
        · exact Nat.lt_of_le_of_ne (Nat.le_of_not_lt h1) h2
        · exact hc y hy

/-- Reset memory has the canonical form. -/
theorem Memory.wf_reset : State.reset.buf.wf := List.Pairwise.nil

/-! ### MemRead -/

/-- MemRead answers the bytes exactly when each of them is there. -/
theorem memRead_eq_some_iff (m : Memory) (a n : Nat) (B : List Byte) :
    memRead m a n = some B ↔ B.length = n ∧ ∀ k, k < n → m.byteAt (a + k) = B[k]? := by
  induction n generalizing a B with
  | zero =>
    cases B <;> simp [memRead]
  | succ n ih =>
    unfold memRead
    constructor
    · intro h
      split at h
      · rename_i b bs hb hbs
        obtain rfl := Option.some.inj h
        obtain ⟨hl, hk⟩ := (ih (a + 1) bs).1 hbs
        refine ⟨by simp [hl], fun k hkn => ?_⟩
        cases k with
        | zero => simpa using hb
        | succ k => simpa [Nat.add_assoc, Nat.add_comm 1 k] using hk k (by omega)
      · simp at h
    · rintro ⟨hl, hk⟩
      cases B with
      | nil => simp at hl
      | cons b bs =>
        have h0 : m.byteAt a = some b := by simpa using hk 0 (by omega)
        have h1 : memRead m (a + 1) n = some bs :=
          (ih (a + 1) bs).2 ⟨by simpa using hl, fun k hkn => by
            simpa [Nat.add_assoc, Nat.add_comm 1 k] using hk (k + 1) (by omega)⟩
        simp [h0, h1]

/-- MemRead answers nothing exactly when one of the bytes is unwritten. -/
theorem memRead_eq_none_iff (m : Memory) (a n : Nat) : memRead m a n = none ↔ ∃ k, k < n ∧ m.byteAt (a + k) = none := by
  induction n generalizing a with
  | zero => simp [memRead]
  | succ n ih =>
    unfold memRead
    cases h0 : m.byteAt a with
    | none =>
      simp only [true_iff]
      exact ⟨0, by omega, by simpa using h0⟩
    | some b =>
      cases h1 : memRead m (a + 1) n with
      | none =>
        obtain ⟨k, hk, hn⟩ := (ih (a + 1)).1 h1
        simp only [true_iff]
        exact ⟨k + 1, by omega, by rw [← hn]; congr 1; omega⟩
      | some bs =>
        simp only [reduceCtorEq, false_iff]
        rintro ⟨k, hk, hn⟩
        cases k with
        | zero => simp [h0] at hn
        | succ k =>
          have := (ih (a + 1)).2 ⟨k, by omega, by rw [← hn]; congr 1; omega⟩
          simp [h1] at this

/-- What MemRead answers has the length asked for. -/
theorem memRead_length {m : Memory} {a n : Nat} {B : List Byte} (h : memRead m a n = some B) : B.length = n :=
  ((memRead_eq_some_iff m a n B).1 h).1

/-! ### The register map -/

/-- The map gives a register at its own offset and nowhere else. -/
theorem regAt_eq_some_iff (off : Nat) (r : Reg) : regAt off = some r ↔ off = regOffset r := by
  constructor
  · intro h
    unfold regAt at h
    split at h <;> cases h <;> rfl
  · rintro rfl
    cases r <;> rfl

/-- The map gives no register exactly at the unaligned offsets and those above it (10_state.md R37). -/
theorem regAt_eq_none_iff (off : Nat) : regAt off = none ↔ off % 4 ≠ 0 ∨ 0x30 < off := by
  constructor
  · intro h
    by_contra hc
    push Not at hc
    obtain ⟨h1, h2⟩ := hc
    interval_cases off <;> simp_all [regAt]
  · intro h
    unfold regAt
    split <;> simp_all

/-! ### The fields of STATUS -/

/-- BUSY reads PENDING (10_state.md R39). -/
theorem busyField_statusWord (s : State) : busyField (statusWord s) = s.pending := by
  unfold busyField statusWord
  cases s.pending <;> cases s.err <;> cases s.scanOut <;> decide

/-- The ERR field of STATUS is ERR's code (10_state.md R25). -/
theorem errField_statusWord (s : State) : errField (statusWord s) = (errBits s.err).setWidth 32 := by
  unfold errField statusWord
  cases s.pending <;> cases s.err <;> cases s.scanOut <;> decide

/-- The SCAN_OUT field of STATUS is SCAN_OUT's code (10_state.md R25). -/
theorem scanOutField_statusWord (s : State) : scanOutField (statusWord s) = (scanOutBits s.scanOut).setWidth 32 := by
  unfold scanOutField statusWord
  cases s.pending <;> cases s.err <;> cases s.scanOut <;> decide

/-! ### The common checks -/

/-- BUF_CAP lies in its allowed range (00_scope.md R7). -/
theorem bufCap_range : 1029 ≤ Config.bufCap ∧ Config.bufCap ≤ 2 ^ 29 := by
  have := Config.capIndex.isLt
  unfold Config.bufCap
  omega

/-- The buffer-length check passes: the command goes on. -/
theorem withBufLen_pass {s : State} {k : Host.Outcome State Fault Refusal} (h : s.bufLen.toNat ≤ Config.bufCap) :
    withBufLen s k = k := by simp [withBufLen, bufLenOk, h]

/-- The buffer-length check fails: BAD_WINDOW. -/
theorem withBufLen_fail {s : State} {k : Host.Outcome State Fault Refusal} (h : Config.bufCap < s.bufLen.toNat) :
    withBufLen s k = .next (finish .badWindow s) := by simp [withBufLen, bufLenOk, Nat.not_le.2 h]

/-- Both window checks pass: the command goes on. -/
theorem withWindow_pass {s : State} {base n : Nat} {k : Host.Outcome State Fault Refusal}
    (h : s.bufLen.toNat ≤ Config.bufCap) (hw : base + n ≤ s.bufLen.toNat) : withWindow s base n k = k := by
  simp [withWindow, withBufLen_pass h, windowOk, hw]

/-- One of the window checks fails: BAD_WINDOW. -/
theorem withWindow_fail {s : State} {base n : Nat} {k : Host.Outcome State Fault Refusal}
    (h : Config.bufCap < s.bufLen.toNat ∨ s.bufLen.toNat < base + n) :
    withWindow s base n k = .next (finish .badWindow s) := by
  by_cases hc : s.bufLen.toNat ≤ Config.bufCap
  · have hw : ¬ base + n ≤ s.bufLen.toNat := by omega
    simp [withWindow, withBufLen_pass hc, windowOk, hw]
  · exact withBufLen_fail (Nat.lt_of_not_le hc)

/-- Everything `withBytes` can do. -/
theorem withBytes_cases (s : State) (a n : Nat) (k : List Byte → Host.Outcome State Fault Refusal) :
    (∃ B, memRead s.buf a n = some B ∧ withBytes s a n k = k B) ∨
      (memRead s.buf a n = none ∧ withBytes s a n k = .fault .uninitRead) := by
  unfold withBytes
  cases h : memRead s.buf a n with
  | some B => exact .inl ⟨B, rfl, rfl⟩
  | none => exact .inr ⟨rfl, rfl⟩

end Sys2Proof.Machine
end

