-- ==== Sys2Proof/Laws/State.lean ====
section
/-! SUPPORT. One lemma per field of State per named update, so that no proof unfolds a record update. -/

namespace Sys2Proof.Machine

/-! ### `startCommand` -/

@[simp] theorem startCommand_cmd (v : Word) (s : State) : (startCommand v s).cmd = v := rfl
@[simp] theorem startCommand_latch (v : Word) (s : State) : (startCommand v s).latch = v := rfl
@[simp] theorem startCommand_pending (v : Word) (s : State) : (startCommand v s).pending = true := rfl
@[simp] theorem startCommand_err (v : Word) (s : State) : (startCommand v s).err = s.err := rfl
@[simp] theorem startCommand_scanOut (v : Word) (s : State) : (startCommand v s).scanOut = s.scanOut := rfl
@[simp] theorem startCommand_arg0 (v : Word) (s : State) : (startCommand v s).arg0 = s.arg0 := rfl
@[simp] theorem startCommand_arg1 (v : Word) (s : State) : (startCommand v s).arg1 = s.arg1 := rfl
@[simp] theorem startCommand_arg2 (v : Word) (s : State) : (startCommand v s).arg2 = s.arg2 := rfl
@[simp] theorem startCommand_arg3 (v : Word) (s : State) : (startCommand v s).arg3 = s.arg3 := rfl
@[simp] theorem startCommand_result (v : Word) (s : State) : (startCommand v s).result = s.result := rfl
@[simp] theorem startCommand_bufLen (v : Word) (s : State) : (startCommand v s).bufLen = s.bufLen := rfl
@[simp] theorem startCommand_cursor (v : Word) (s : State) : (startCommand v s).cursor = s.cursor := rfl
@[simp] theorem startCommand_frameOff (v : Word) (s : State) : (startCommand v s).frameOff = s.frameOff := rfl
@[simp] theorem startCommand_frameLen (v : Word) (s : State) : (startCommand v s).frameLen = s.frameLen := rfl
@[simp] theorem startCommand_frameCount (v : Word) (s : State) : (startCommand v s).frameCount = s.frameCount := rfl
@[simp] theorem startCommand_crcReg (v : Word) (s : State) : (startCommand v s).crcReg = s.crcReg := rfl
@[simp] theorem startCommand_bitAcc (v : Word) (s : State) : (startCommand v s).bitAcc = s.bitAcc := rfl
@[simp] theorem startCommand_buf (v : Word) (s : State) : (startCommand v s).buf = s.buf := rfl
@[simp] theorem startCommand_host (v : Word) (s : State) : (startCommand v s).host = s.host := rfl
@[simp] theorem startCommand_turns (v : Word) (s : State) : (startCommand v s).turns = s.turns := rfl

/-! ### `finish` -/

@[simp] theorem finish_cmd (c : ErrCode) (s : State) : (finish c s).cmd = s.cmd := rfl
@[simp] theorem finish_latch (c : ErrCode) (s : State) : (finish c s).latch = s.latch := rfl
@[simp] theorem finish_pending (c : ErrCode) (s : State) : (finish c s).pending = false := rfl
@[simp] theorem finish_err (c : ErrCode) (s : State) : (finish c s).err = c := rfl
@[simp] theorem finish_scanOut (c : ErrCode) (s : State) : (finish c s).scanOut = s.scanOut := rfl
@[simp] theorem finish_arg0 (c : ErrCode) (s : State) : (finish c s).arg0 = s.arg0 := rfl
@[simp] theorem finish_arg1 (c : ErrCode) (s : State) : (finish c s).arg1 = s.arg1 := rfl
@[simp] theorem finish_arg2 (c : ErrCode) (s : State) : (finish c s).arg2 = s.arg2 := rfl
@[simp] theorem finish_arg3 (c : ErrCode) (s : State) : (finish c s).arg3 = s.arg3 := rfl
@[simp] theorem finish_result (c : ErrCode) (s : State) : (finish c s).result = s.result := rfl
@[simp] theorem finish_bufLen (c : ErrCode) (s : State) : (finish c s).bufLen = s.bufLen := rfl
@[simp] theorem finish_cursor (c : ErrCode) (s : State) : (finish c s).cursor = s.cursor := rfl
@[simp] theorem finish_frameOff (c : ErrCode) (s : State) : (finish c s).frameOff = s.frameOff := rfl
@[simp] theorem finish_frameLen (c : ErrCode) (s : State) : (finish c s).frameLen = s.frameLen := rfl
@[simp] theorem finish_frameCount (c : ErrCode) (s : State) : (finish c s).frameCount = s.frameCount := rfl
@[simp] theorem finish_crcReg (c : ErrCode) (s : State) : (finish c s).crcReg = s.crcReg := rfl
@[simp] theorem finish_bitAcc (c : ErrCode) (s : State) : (finish c s).bitAcc = s.bitAcc := rfl
@[simp] theorem finish_buf (c : ErrCode) (s : State) : (finish c s).buf = s.buf := rfl
@[simp] theorem finish_host (c : ErrCode) (s : State) : (finish c s).host = s.host := rfl
@[simp] theorem finish_turns (c : ErrCode) (s : State) : (finish c s).turns = s.turns := rfl

/-! ### `finishField` -/

@[simp] theorem finishField_cmd (v : Nat) (s : State) : (finishField v s).cmd = s.cmd := rfl
@[simp] theorem finishField_latch (v : Nat) (s : State) : (finishField v s).latch = s.latch := rfl
@[simp] theorem finishField_pending (v : Nat) (s : State) : (finishField v s).pending = false := rfl
@[simp] theorem finishField_err (v : Nat) (s : State) : (finishField v s).err = .ok := rfl
@[simp] theorem finishField_scanOut (v : Nat) (s : State) : (finishField v s).scanOut = s.scanOut := rfl
@[simp] theorem finishField_arg0 (v : Nat) (s : State) : (finishField v s).arg0 = s.arg0 := rfl
@[simp] theorem finishField_arg1 (v : Nat) (s : State) : (finishField v s).arg1 = s.arg1 := rfl
@[simp] theorem finishField_arg2 (v : Nat) (s : State) : (finishField v s).arg2 = s.arg2 := rfl
@[simp] theorem finishField_arg3 (v : Nat) (s : State) : (finishField v s).arg3 = s.arg3 := rfl
@[simp] theorem finishField_result (v : Nat) (s : State) : (finishField v s).result = BitVec.ofNat 32 v := rfl
@[simp] theorem finishField_bufLen (v : Nat) (s : State) : (finishField v s).bufLen = s.bufLen := rfl
@[simp] theorem finishField_cursor (v : Nat) (s : State) : (finishField v s).cursor = s.cursor := rfl
@[simp] theorem finishField_frameOff (v : Nat) (s : State) : (finishField v s).frameOff = s.frameOff := rfl
@[simp] theorem finishField_frameLen (v : Nat) (s : State) : (finishField v s).frameLen = s.frameLen := rfl
@[simp] theorem finishField_frameCount (v : Nat) (s : State) : (finishField v s).frameCount = s.frameCount := rfl
@[simp] theorem finishField_crcReg (v : Nat) (s : State) : (finishField v s).crcReg = s.crcReg := rfl
@[simp] theorem finishField_bitAcc (v : Nat) (s : State) : (finishField v s).bitAcc = BitVec.ofNat 32 v := rfl
@[simp] theorem finishField_buf (v : Nat) (s : State) : (finishField v s).buf = s.buf := rfl
@[simp] theorem finishField_host (v : Nat) (s : State) : (finishField v s).host = s.host := rfl
@[simp] theorem finishField_turns (v : Nat) (s : State) : (finishField v s).turns = s.turns := rfl

/-! ### `clearScan` -/

@[simp] theorem clearScan_cmd (s : State) : (clearScan s).cmd = s.cmd := rfl
@[simp] theorem clearScan_latch (s : State) : (clearScan s).latch = s.latch := rfl
@[simp] theorem clearScan_pending (s : State) : (clearScan s).pending = s.pending := rfl
@[simp] theorem clearScan_err (s : State) : (clearScan s).err = s.err := rfl
@[simp] theorem clearScan_scanOut (s : State) : (clearScan s).scanOut = .noAttempt := rfl
@[simp] theorem clearScan_arg0 (s : State) : (clearScan s).arg0 = s.arg0 := rfl
@[simp] theorem clearScan_arg1 (s : State) : (clearScan s).arg1 = s.arg1 := rfl
@[simp] theorem clearScan_arg2 (s : State) : (clearScan s).arg2 = s.arg2 := rfl
@[simp] theorem clearScan_arg3 (s : State) : (clearScan s).arg3 = s.arg3 := rfl
@[simp] theorem clearScan_result (s : State) : (clearScan s).result = s.result := rfl
@[simp] theorem clearScan_bufLen (s : State) : (clearScan s).bufLen = s.bufLen := rfl
@[simp] theorem clearScan_cursor (s : State) : (clearScan s).cursor = 0#32 := rfl
@[simp] theorem clearScan_frameOff (s : State) : (clearScan s).frameOff = 0#32 := rfl
@[simp] theorem clearScan_frameLen (s : State) : (clearScan s).frameLen = 0#32 := rfl
@[simp] theorem clearScan_frameCount (s : State) : (clearScan s).frameCount = 0#32 := rfl
@[simp] theorem clearScan_crcReg (s : State) : (clearScan s).crcReg = s.crcReg := rfl
@[simp] theorem clearScan_bitAcc (s : State) : (clearScan s).bitAcc = s.bitAcc := rfl
@[simp] theorem clearScan_buf (s : State) : (clearScan s).buf = s.buf := rfl
@[simp] theorem clearScan_host (s : State) : (clearScan s).host = s.host := rfl
@[simp] theorem clearScan_turns (s : State) : (clearScan s).turns = s.turns := rfl

/-! ### `captureWord` -/

@[simp] theorem captureWord_cmd (v : Word) (s : State) : (captureWord v s).cmd = v := rfl
@[simp] theorem captureWord_latch (v : Word) (s : State) : (captureWord v s).latch = v := rfl
@[simp] theorem captureWord_pending (v : Word) (s : State) : (captureWord v s).pending = true := rfl
@[simp] theorem captureWord_err (v : Word) (s : State) : (captureWord v s).err = s.err := rfl
@[simp] theorem captureWord_scanOut (v : Word) (s : State) : (captureWord v s).scanOut = s.scanOut := rfl
@[simp] theorem captureWord_arg0 (v : Word) (s : State) : (captureWord v s).arg0 = s.arg0 := rfl
@[simp] theorem captureWord_arg1 (v : Word) (s : State) : (captureWord v s).arg1 = s.arg1 := rfl
@[simp] theorem captureWord_arg2 (v : Word) (s : State) : (captureWord v s).arg2 = s.arg2 := rfl
@[simp] theorem captureWord_arg3 (v : Word) (s : State) : (captureWord v s).arg3 = s.arg3 := rfl
@[simp] theorem captureWord_result (v : Word) (s : State) : (captureWord v s).result = s.result := rfl
@[simp] theorem captureWord_bufLen (v : Word) (s : State) : (captureWord v s).bufLen = s.bufLen := rfl
@[simp] theorem captureWord_cursor (v : Word) (s : State) : (captureWord v s).cursor = s.cursor := rfl
@[simp] theorem captureWord_frameOff (v : Word) (s : State) : (captureWord v s).frameOff = s.frameOff := rfl
@[simp] theorem captureWord_frameLen (v : Word) (s : State) : (captureWord v s).frameLen = s.frameLen := rfl
@[simp] theorem captureWord_frameCount (v : Word) (s : State) : (captureWord v s).frameCount = s.frameCount := rfl
@[simp] theorem captureWord_crcReg (v : Word) (s : State) : (captureWord v s).crcReg = s.crcReg := rfl
@[simp] theorem captureWord_bitAcc (v : Word) (s : State) : (captureWord v s).bitAcc = s.bitAcc := rfl
@[simp] theorem captureWord_buf (v : Word) (s : State) : (captureWord v s).buf = s.buf := rfl
@[simp] theorem captureWord_host (v : Word) (s : State) : (captureWord v s).host = s.host := rfl
@[simp] theorem captureWord_turns (v : Word) (s : State) : (captureWord v s).turns = [] := rfl

/-! ### `hostAdvance` -/

@[simp] theorem hostAdvance_cmd (x : Option HostName) (v : Option Word) (s : State) : (hostAdvance x v s).cmd = s.cmd := rfl
@[simp] theorem hostAdvance_latch (x : Option HostName) (v : Option Word) (s : State) : (hostAdvance x v s).latch = s.latch := rfl
@[simp] theorem hostAdvance_pending (x : Option HostName) (v : Option Word) (s : State) : (hostAdvance x v s).pending = s.pending := rfl
@[simp] theorem hostAdvance_err (x : Option HostName) (v : Option Word) (s : State) : (hostAdvance x v s).err = s.err := rfl
@[simp] theorem hostAdvance_scanOut (x : Option HostName) (v : Option Word) (s : State) : (hostAdvance x v s).scanOut = s.scanOut := rfl
@[simp] theorem hostAdvance_arg0 (x : Option HostName) (v : Option Word) (s : State) : (hostAdvance x v s).arg0 = s.arg0 := rfl
@[simp] theorem hostAdvance_arg1 (x : Option HostName) (v : Option Word) (s : State) : (hostAdvance x v s).arg1 = s.arg1 := rfl
@[simp] theorem hostAdvance_arg2 (x : Option HostName) (v : Option Word) (s : State) : (hostAdvance x v s).arg2 = s.arg2 := rfl
@[simp] theorem hostAdvance_arg3 (x : Option HostName) (v : Option Word) (s : State) : (hostAdvance x v s).arg3 = s.arg3 := rfl
@[simp] theorem hostAdvance_result (x : Option HostName) (v : Option Word) (s : State) : (hostAdvance x v s).result = s.result := rfl
@[simp] theorem hostAdvance_bufLen (x : Option HostName) (v : Option Word) (s : State) : (hostAdvance x v s).bufLen = s.bufLen := rfl
@[simp] theorem hostAdvance_cursor (x : Option HostName) (v : Option Word) (s : State) : (hostAdvance x v s).cursor = s.cursor := rfl
@[simp] theorem hostAdvance_frameOff (x : Option HostName) (v : Option Word) (s : State) : (hostAdvance x v s).frameOff = s.frameOff := rfl
@[simp] theorem hostAdvance_frameLen (x : Option HostName) (v : Option Word) (s : State) : (hostAdvance x v s).frameLen = s.frameLen := rfl
@[simp] theorem hostAdvance_frameCount (x : Option HostName) (v : Option Word) (s : State) : (hostAdvance x v s).frameCount = s.frameCount := rfl
@[simp] theorem hostAdvance_crcReg (x : Option HostName) (v : Option Word) (s : State) : (hostAdvance x v s).crcReg = s.crcReg := rfl
@[simp] theorem hostAdvance_bitAcc (x : Option HostName) (v : Option Word) (s : State) : (hostAdvance x v s).bitAcc = s.bitAcc := rfl
@[simp] theorem hostAdvance_buf (x : Option HostName) (v : Option Word) (s : State) : (hostAdvance x v s).buf = s.buf := rfl
@[simp] theorem hostAdvance_turns (x : Option HostName) (v : Option Word) (s : State) : (hostAdvance x v s).turns = s.turns := rfl
@[simp] theorem hostAdvance_host_pc (x : Option HostName) (v : Option Word) (s : State) : (hostAdvance x v s).host.pc = s.host.pc + 1 := rfl
@[simp] theorem hostAdvance_host_prog (x : Option HostName) (v : Option Word) (s : State) : (hostAdvance x v s).host.prog = s.host.prog := rfl
@[simp] theorem hostAdvance_host_halted (x : Option HostName) (v : Option Word) (s : State) : (hostAdvance x v s).host.halted = s.host.halted := rfl

/-! ### `resetBlock` -/

@[simp] theorem resetBlock_cmd (s : State) : (resetBlock s).cmd = State.reset.cmd := rfl
@[simp] theorem resetBlock_latch (s : State) : (resetBlock s).latch = State.reset.latch := rfl
@[simp] theorem resetBlock_pending (s : State) : (resetBlock s).pending = State.reset.pending := rfl
@[simp] theorem resetBlock_err (s : State) : (resetBlock s).err = State.reset.err := rfl
@[simp] theorem resetBlock_scanOut (s : State) : (resetBlock s).scanOut = State.reset.scanOut := rfl
@[simp] theorem resetBlock_arg0 (s : State) : (resetBlock s).arg0 = State.reset.arg0 := rfl
@[simp] theorem resetBlock_arg1 (s : State) : (resetBlock s).arg1 = State.reset.arg1 := rfl
@[simp] theorem resetBlock_arg2 (s : State) : (resetBlock s).arg2 = State.reset.arg2 := rfl
@[simp] theorem resetBlock_arg3 (s : State) : (resetBlock s).arg3 = State.reset.arg3 := rfl
@[simp] theorem resetBlock_result (s : State) : (resetBlock s).result = State.reset.result := rfl
@[simp] theorem resetBlock_bufLen (s : State) : (resetBlock s).bufLen = State.reset.bufLen := rfl
@[simp] theorem resetBlock_cursor (s : State) : (resetBlock s).cursor = State.reset.cursor := rfl
@[simp] theorem resetBlock_frameOff (s : State) : (resetBlock s).frameOff = State.reset.frameOff := rfl
@[simp] theorem resetBlock_frameLen (s : State) : (resetBlock s).frameLen = State.reset.frameLen := rfl
@[simp] theorem resetBlock_frameCount (s : State) : (resetBlock s).frameCount = State.reset.frameCount := rfl
@[simp] theorem resetBlock_crcReg (s : State) : (resetBlock s).crcReg = State.reset.crcReg := rfl
@[simp] theorem resetBlock_bitAcc (s : State) : (resetBlock s).bitAcc = State.reset.bitAcc := rfl
@[simp] theorem resetBlock_buf (s : State) : (resetBlock s).buf = State.reset.buf := rfl
@[simp] theorem resetBlock_host (s : State) : (resetBlock s).host = s.host := rfl
@[simp] theorem resetBlock_turns (s : State) : (resetBlock s).turns = s.turns := rfl

/-! ### `takeTurn` -/

@[simp] theorem takeTurn_cmd (s : State) : (takeTurn s).cmd = s.cmd := by unfold takeTurn; split <;> rfl
@[simp] theorem takeTurn_latch (s : State) : (takeTurn s).latch = s.latch := by unfold takeTurn; split <;> rfl
@[simp] theorem takeTurn_pending (s : State) : (takeTurn s).pending = s.pending := by unfold takeTurn; split <;> rfl
@[simp] theorem takeTurn_err (s : State) : (takeTurn s).err = s.err := by unfold takeTurn; split <;> rfl
@[simp] theorem takeTurn_scanOut (s : State) : (takeTurn s).scanOut = s.scanOut := by unfold takeTurn; split <;> rfl
@[simp] theorem takeTurn_arg0 (s : State) : (takeTurn s).arg0 = s.arg0 := by unfold takeTurn; split <;> rfl
@[simp] theorem takeTurn_arg1 (s : State) : (takeTurn s).arg1 = s.arg1 := by unfold takeTurn; split <;> rfl
@[simp] theorem takeTurn_arg2 (s : State) : (takeTurn s).arg2 = s.arg2 := by unfold takeTurn; split <;> rfl
@[simp] theorem takeTurn_arg3 (s : State) : (takeTurn s).arg3 = s.arg3 := by unfold takeTurn; split <;> rfl
@[simp] theorem takeTurn_result (s : State) : (takeTurn s).result = s.result := by unfold takeTurn; split <;> rfl
@[simp] theorem takeTurn_bufLen (s : State) : (takeTurn s).bufLen = s.bufLen := by unfold takeTurn; split <;> rfl
@[simp] theorem takeTurn_cursor (s : State) : (takeTurn s).cursor = s.cursor := by unfold takeTurn; split <;> rfl
@[simp] theorem takeTurn_frameOff (s : State) : (takeTurn s).frameOff = s.frameOff := by unfold takeTurn; split <;> rfl
@[simp] theorem takeTurn_frameLen (s : State) : (takeTurn s).frameLen = s.frameLen := by unfold takeTurn; split <;> rfl
@[simp] theorem takeTurn_frameCount (s : State) : (takeTurn s).frameCount = s.frameCount := by unfold takeTurn; split <;> rfl
@[simp] theorem takeTurn_crcReg (s : State) : (takeTurn s).crcReg = s.crcReg := by unfold takeTurn; split <;> rfl
@[simp] theorem takeTurn_bitAcc (s : State) : (takeTurn s).bitAcc = s.bitAcc := by unfold takeTurn; split <;> rfl
@[simp] theorem takeTurn_buf (s : State) : (takeTurn s).buf = s.buf := by unfold takeTurn; split <;> rfl
@[simp] theorem takeTurn_host (s : State) : (takeTurn s).host = s.host := by unfold takeTurn; split <;> rfl

/-! ### `applyAttempt` -/

@[simp] theorem applyAttempt_cmd (a : Attempt) (s : State) : (applyAttempt a s).cmd = s.cmd := by unfold applyAttempt; split <;> rfl
@[simp] theorem applyAttempt_latch (a : Attempt) (s : State) : (applyAttempt a s).latch = s.latch := by unfold applyAttempt; split <;> rfl
@[simp] theorem applyAttempt_pending (a : Attempt) (s : State) : (applyAttempt a s).pending = s.pending := by unfold applyAttempt; split <;> rfl
@[simp] theorem applyAttempt_err (a : Attempt) (s : State) : (applyAttempt a s).err = s.err := by unfold applyAttempt; split <;> rfl
@[simp] theorem applyAttempt_scanOut (a : Attempt) (s : State) : (applyAttempt a s).scanOut = a.out := by unfold applyAttempt; split <;> rfl
@[simp] theorem applyAttempt_arg0 (a : Attempt) (s : State) : (applyAttempt a s).arg0 = s.arg0 := by unfold applyAttempt; split <;> rfl
@[simp] theorem applyAttempt_arg1 (a : Attempt) (s : State) : (applyAttempt a s).arg1 = s.arg1 := by unfold applyAttempt; split <;> rfl
@[simp] theorem applyAttempt_arg2 (a : Attempt) (s : State) : (applyAttempt a s).arg2 = s.arg2 := by unfold applyAttempt; split <;> rfl
@[simp] theorem applyAttempt_arg3 (a : Attempt) (s : State) : (applyAttempt a s).arg3 = s.arg3 := by unfold applyAttempt; split <;> rfl
@[simp] theorem applyAttempt_result (a : Attempt) (s : State) : (applyAttempt a s).result = s.result := by unfold applyAttempt; split <;> rfl
@[simp] theorem applyAttempt_bufLen (a : Attempt) (s : State) : (applyAttempt a s).bufLen = s.bufLen := by unfold applyAttempt; split <;> rfl
@[simp] theorem applyAttempt_cursor (a : Attempt) (s : State) : (applyAttempt a s).cursor = BitVec.ofNat 32 a.next := by unfold applyAttempt; split <;> rfl
@[simp] theorem applyAttempt_crcReg (a : Attempt) (s : State) : (applyAttempt a s).crcReg = a.crc.getD s.crcReg := by unfold applyAttempt; split <;> rfl
@[simp] theorem applyAttempt_bitAcc (a : Attempt) (s : State) : (applyAttempt a s).bitAcc = s.bitAcc := by unfold applyAttempt; split <;> rfl
@[simp] theorem applyAttempt_buf (a : Attempt) (s : State) : (applyAttempt a s).buf = s.buf := by unfold applyAttempt; split <;> rfl
@[simp] theorem applyAttempt_host (a : Attempt) (s : State) : (applyAttempt a s).host = s.host := by unfold applyAttempt; split <;> rfl
@[simp] theorem applyAttempt_turns (a : Attempt) (s : State) : (applyAttempt a s).turns = s.turns := by unfold applyAttempt; split <;> rfl

end Sys2Proof.Machine
end

