-- ==== Sys2Proof/Laws/Scanner.lean ====
section
/-! SUPPORT. Everything one scanner attempt and the SCANNEXT loop can answer. -/

namespace Sys2Proof.Machine

/-- The payload length is a 10-bit number (30_encoding.md R72). -/
theorem payloadLen_le (b1 b2 : Byte) : payloadLen b1 b2 ≤ 1023 := Nat.and_le_right

/-- Everything one attempt can answer, case by case (43_scanner.md R108 to R113). -/
theorem scanAttempt_cases {m : Memory} {n o : Nat} {a : Attempt} (h : scanAttempt m n o = .ok a) :
    (n ≤ o ∧ a = { out := .atEnd, next := o, frame := none, crc := none }) ∨
    (o < n ∧ ∃ b0, m.byteAt o = some b0 ∧
      ((b0 ≠ Config.preamble ∧ a = { out := .skipPreamble, next := o + 1, frame := none, crc := none }) ∨
       (b0 = Config.preamble ∧ n < o + 3 ∧ a = { out := .skipShort, next := o + 1, frame := none, crc := none }) ∨
       (b0 = Config.preamble ∧ o + 3 ≤ n ∧ ∃ b1 b2, m.byteAt (o + 1) = some b1 ∧ m.byteAt (o + 2) = some b2 ∧
         ((n < o + (payloadLen b1 b2 + 6) ∧ a = { out := .skipShort, next := o + 1, frame := none, crc := none }) ∨
          (o + (payloadLen b1 b2 + 6) ≤ n ∧ ∃ B, memRead m o (payloadLen b1 b2 + 6) = some B ∧
            a = judge o (payloadLen b1 b2) B))))) := by
  unfold scanAttempt at h
  split at h
  · exact .inl ⟨by assumption, (Except.ok.inj h).symm⟩
  · rename_i ho
    refine .inr ⟨by omega, ?_⟩
    split at h
    · cases h
    · rename_i b0 hb0
      refine ⟨b0, hb0, ?_⟩
      split at h
      · exact .inl ⟨by assumption, (Except.ok.inj h).symm⟩
      · rename_i hp
        have hp : b0 = Config.preamble := Classical.not_not.1 hp
        split at h
        · rename_i hs
          exact .inr (.inl ⟨hp, by simpa [Config.headerBytes] using hs, (Except.ok.inj h).symm⟩)
        · rename_i hs
          refine .inr (.inr ⟨hp, by simpa [Config.headerBytes] using hs, ?_⟩)
          split at h
          · rename_i b1 b2 h1 h2
            refine ⟨b1, b2, h1, h2, ?_⟩
            split at h
            · rename_i hl
              exact .inl ⟨by simpa [Config.frameBytes] using hl, (Except.ok.inj h).symm⟩
            · rename_i hl
              refine .inr ⟨by simpa [Config.frameBytes] using hl, ?_⟩
              split at h
              · rename_i B hB
                exact ⟨B, hB, (Except.ok.inj h).symm⟩
              · cases h
          · cases h

/-- The two verdicts of the checksum test (43_scanner.md R112, R113). -/
theorem judge_cases (o L : Nat) (B : List Byte) :
    (crc24q B ≠ 0#24 ∧ judge o L B = { out := .skipCrc, next := o + 1, frame := none, crc := some (crcRegister B) }) ∨
    (crc24q B = 0#24 ∧ judge o L B = { out := .frame, next := o + (L + 6), frame := some (o, L), crc := some (crcRegister B) }) := by
  unfold judge
  split
  · exact .inl ⟨by assumption, rfl⟩
  · exact .inr ⟨Classical.not_not.1 (by assumption), rfl⟩

/-- An attempt only ever faults by reading an unwritten byte (60_exceptions.md R126). -/
theorem scanAttempt_fault {m : Memory} {n o : Nat} {f : Fault} (h : scanAttempt m n o = .error f) : f = .uninitRead := by
  unfold scanAttempt at h
  repeat' split at h
  all_goals first | rfl | (cases h; rfl) | cases h

/-- The payload length as arithmetic on the two length bytes (30_encoding.md R72). -/
theorem payloadLen_eq (b1 b2 : Byte) : payloadLen b1 b2 = (b1.toNat * 256 + b2.toNat) % 1024 := by
  unfold payloadLen Config.lenMask
  rw [show (0x3FF : Nat) = 2 ^ 10 - 1 by rfl, Nat.and_two_pow_sub_one_eq_mod, Nat.shiftLeft_eq,
    show (2 : Nat) ^ 8 = 256 by rfl, Nat.mul_comm, ← Nat.two_pow_add_eq_or_of_lt (i := 8) b2.isLt]

/-- An attempt faults exactly when one of the bytes it reads is unwritten (20_memory.md R49, R50). -/
theorem scanAttempt_error_iff (m : Memory) (n o : Nat) : scanAttempt m n o = .error .uninitRead ↔
    (o < n ∧ (m.byteAt o = none ∨
      (m.byteAt o = some Config.preamble ∧ o + 3 ≤ n ∧ (m.byteAt (o + 1) = none ∨ m.byteAt (o + 2) = none ∨
        ∃ b1 b2, m.byteAt (o + 1) = some b1 ∧ m.byteAt (o + 2) = some b2 ∧ o + (payloadLen b1 b2 + 6) ≤ n ∧
          memRead m o (payloadLen b1 b2 + 6) = none)))) := by
  unfold scanAttempt Config.headerBytes Config.frameBytes
  by_cases ho : o ≥ n
  · simp [ho]
  rw [if_neg ho]
  cases h0 : m.byteAt o with
  | none => simp; omega
  | some b0 =>
    by_cases hp : b0 = Config.preamble
    · by_cases hs : o + 3 > n
      · simp [hp, hs]
      · cases h1 : m.byteAt (o + 1) with
        | none => simp [hp, hs]; omega
        | some b1 =>
          cases h2 : m.byteAt (o + 2) with
          | none => simp [hp, hs]; omega
          | some b2 =>
            by_cases hl : o + (payloadLen b1 b2 + 6) > n
            · simp [hp, hs, hl]
            · cases hB : memRead m o (payloadLen b1 b2 + 6) with
              | none => simp [hp, hs, hl, hB]; omega
              | some B => simp [hp, hs, hl, hB]
    · simp [hp]
/-- What an attempt answers, in one line each: END keeps the cursor, a skip moves it by one, FRAME moves it past the frame and
stays at or below the end (43_scanner.md R117). -/
theorem scanAttempt_progress {m : Memory} {n o : Nat} {a : Attempt} (h : scanAttempt m n o = .ok a) :
    (n ≤ o ∧ a.out = .atEnd ∧ a.next = o ∧ a.frame = none ∧ a.crc = none) ∨
    (o < n ∧ (a.out = .skipPreamble ∨ a.out = .skipShort ∨ a.out = .skipCrc) ∧ a.next = o + 1 ∧ a.frame = none) ∨
    (o < n ∧ a.out = .frame ∧ ∃ L, L ≤ 1023 ∧ a.frame = some (o, L) ∧ a.next = o + (L + 6) ∧ o + (L + 6) ≤ n) := by
  rcases scanAttempt_cases h with ⟨ho, rfl⟩ | ⟨ho, b0, _, h⟩
  · exact .inl ⟨ho, rfl, rfl, rfl, rfl⟩
  · refine .inr ?_
    rcases h with ⟨_, rfl⟩ | ⟨_, _, rfl⟩ | ⟨_, _, b1, b2, _, _, h⟩
    · exact .inl ⟨ho, by simp, rfl, rfl⟩
    · exact .inl ⟨ho, by simp, rfl, rfl⟩
    · rcases h with ⟨_, rfl⟩ | ⟨hl, B, _, rfl⟩
      · exact .inl ⟨ho, by simp, rfl, rfl⟩
      · rcases judge_cases o (payloadLen b1 b2) B with ⟨_, hj⟩ | ⟨_, hj⟩
        · exact .inl ⟨ho, by simp [hj], by simp [hj], by simp [hj]⟩
        · exact .inr ⟨ho, by simp [hj], payloadLen b1 b2, payloadLen_le b1 b2, by simp [hj], by simp [hj], hl⟩

/-- The loop of SCANNEXT exactly as the rule writes it (43_scanner.md R116): with `k` at least the bytes left, the loop makes one
attempt, ends on FRAME and on END, and otherwise goes on from the next cursor. -/
theorem scanLoop_eq (m : Memory) (n o : Nat) :
    scanLoop m n (n - o) o =
      match scanAttempt m n o with
      | .error f => .error f
      | .ok a =>
        if a.out = .frame ∨ a.out = .atEnd then .ok a
        else
          match scanLoop m n (n - a.next) a.next with
          | .error f => .error f
          | .ok z => .ok { z with crc := z.crc <|> a.crc } := by
  by_cases ho : n ≤ o
  · have hk : n - o = 0 := by omega
    simp [hk, scanLoop, scanAttempt, ho]
  · have hk : n - o = (n - o - 1) + 1 := by omega
    rw [hk, scanLoop]
    cases h : scanAttempt m n o with
    | error f => rfl
    | ok a =>
      rcases scanAttempt_progress h with ⟨h1, h2, _⟩ | ⟨_, _, h3, _⟩ | ⟨_, h2, _⟩
      · omega
      · have : n - a.next = n - o - 1 := by omega
        cases hl : scanLoop m n (n - o - 1) a.next <;> simp [this, hl]
      · simp [h2]

/-- Everything the loop of SCANNEXT can answer: END, with the cursor at the end or where it stood past the end, or FRAME, for a
frame at or after the cursor that an attempt at its own offset accepts (43_scanner.md R116 to R118). -/
theorem scanLoop_cases {m : Memory} {n : Nat} (k : Nat) : ∀ {o : Nat} {a : Attempt}, k = n - o → scanLoop m n k o = .ok a →
    (a.out = .atEnd ∧ a.next = max o n ∧ a.frame = none) ∨
    (a.out = .frame ∧ ∃ p L, o ≤ p ∧ L ≤ 1023 ∧ a.frame = some (p, L) ∧ a.next = p + (L + 6) ∧ p + (L + 6) ≤ n ∧
      ∃ z, scanAttempt m n p = .ok z ∧ z.out = .frame ∧ z.frame = some (p, L)) := by
  induction k with
  | zero =>
    intro o a hk h
    obtain rfl := (Except.ok.inj h).symm
    exact .inl ⟨rfl, by simp only; omega, rfl⟩
  | succ k ih =>
    intro o a hk h
    rw [scanLoop] at h
    cases hz : scanAttempt m n o with
    | error f => simp [hz] at h
    | ok z =>
      rcases scanAttempt_progress hz with ⟨h1, _⟩ | ⟨_, hout, hnext, _⟩ | ⟨_, hout, L, hL, hf, hn, hle⟩
      · omega
      · have hne : ¬ (z.out = .frame ∨ z.out = .atEnd) := by rcases hout with e | e | e <;> simp [e]
        simp only [hz, hne, if_false, hnext] at h
        cases hr : scanLoop m n k (o + 1) with
        | error f => simp [hr] at h
        | ok y =>
          simp only [hr, Except.ok.injEq] at h
          subst h
          rcases ih (by omega) hr with ⟨e1, e2, e3⟩ | ⟨e1, p, L, hp, rest⟩
          · exact .inl ⟨e1, by simp only [e2]; omega, e3⟩
          · exact .inr ⟨e1, p, L, by omega, rest⟩
      · simp only [hz, hout, true_or, if_true, Except.ok.injEq] at h
        subst h
        exact .inr ⟨hout, o, L, Nat.le_refl _, hL, hf, hn, hle, z, hz, hout, hf⟩

/-- What the deciding attempt writes when it emits no frame. -/
theorem applyAttempt_skip {a : Attempt} (s : State) (h : a.frame = none) :
    applyAttempt a s = { s with cursor := BitVec.ofNat 32 a.next, scanOut := a.out, crcReg := a.crc.getD s.crcReg } := by
  simp [applyAttempt, h]

/-- What the deciding attempt writes when it emits a frame. -/
theorem applyAttempt_frame {a : Attempt} {o L : Nat} (s : State) (h : a.frame = some (o, L)) :
    applyAttempt a s = { s with
      frameOff := BitVec.ofNat 32 o, frameLen := BitVec.ofNat 32 L, frameCount := s.frameCount + 1#32
      cursor := BitVec.ofNat 32 a.next, scanOut := a.out, crcReg := a.crc.getD s.crcReg } := by
  simp [applyAttempt, h]

end Sys2Proof.Machine
end

