-- ==== Sys2Proof/Laws/Commands.lean ====
section
/-! SUPPORT. Everything each command that reads the buffer can answer, case by case. -/

namespace Sys2Proof.Machine

/-- Both window checks pass. -/
abbrev WindowFits (s : State) : Prop :=
  s.bufLen.toNat ≤ Config.bufCap ∧ s.arg0.toNat + s.arg1.toNat ≤ s.bufLen.toNat

/-- Everything CRC can answer (41_checksum.md R98). -/
theorem execCrc_cases (s : State) :
    (¬ WindowFits s ∧ execCrc s = .next (finish .badWindow s)) ∨
    (WindowFits s ∧ ∃ B, memRead s.buf s.arg0.toNat s.arg1.toNat = some B ∧
      execCrc s = .next (finish .ok { s with result := (crc24q B).setWidth 32, crcReg := crcRegister B })) ∨
    (WindowFits s ∧ memRead s.buf s.arg0.toNat s.arg1.toNat = none ∧ execCrc s = .fault .uninitRead) := by
  by_cases h : WindowFits s
  · refine .inr ?_
    have e := withWindow_pass (base := operand0 s) (n := operand1 s)
      (k := withBytes s (operand0 s) (operand1 s) fun B =>
        .next (finish .ok { s with result := (crc24q B).setWidth 32, crcReg := crcRegister B })) h.1 h.2
    rcases withBytes_cases s (operand0 s) (operand1 s) fun B =>
        .next (finish .ok { s with result := (crc24q B).setWidth 32, crcReg := crcRegister B }) with ⟨B, hB, hk⟩ | ⟨hB, hk⟩
    · exact .inl ⟨h, B, hB, e.trans hk⟩
    · exact .inr ⟨h, hB, e.trans hk⟩
  · exact .inl ⟨h, withWindow_fail (by unfold WindowFits at h; simp only [operand0, operand1]; omega)⟩

/-- Everything RDBITS can answer, in the order of its checks (42_bitfield.md R105). -/
theorem execRdbits_cases (s : State) :
    (¬ WindowFits s ∧ execRdbits s = .next (finish .badWindow s)) ∨
    (WindowFits s ∧ 32 < s.arg3.toNat ∧ execRdbits s = .next (finish .badWidth s)) ∨
    (WindowFits s ∧ s.arg3.toNat ≤ 32 ∧ 8 * s.arg1.toNat < s.arg2.toNat + s.arg3.toNat ∧
      execRdbits s = .next (finish .outOfRange s)) ∨
    (WindowFits s ∧ s.arg3.toNat ≤ 32 ∧ s.arg2.toNat + s.arg3.toNat ≤ 8 * s.arg1.toNat ∧
      ((s.arg3.toNat = 0 ∧ execRdbits s = .next (finishField 0 s)) ∨
       (0 < s.arg3.toNat ∧ execRdbits s = readField s.arg0.toNat s.arg2.toNat s.arg3.toNat s))) := by
  by_cases h : WindowFits s
  · refine .inr ?_
    unfold execRdbits
    rw [withWindow_pass (base := operand0 s) (n := operand1 s) h.1 h.2]
    by_cases h1 : operand3 s > Config.rbMaxWidth
    · rw [if_pos h1]
      exact .inl ⟨h, h1, rfl⟩
    · rw [if_neg h1]
      have h1' : s.arg3.toNat ≤ 32 := Nat.le_of_not_lt h1
      by_cases h2 : operand2 s + operand3 s > 8 * operand1 s
      · rw [if_pos h2]
        exact .inr (.inl ⟨h, h1', h2, rfl⟩)
      · rw [if_neg h2]
        have h2' : s.arg2.toNat + s.arg3.toNat ≤ 8 * s.arg1.toNat := Nat.le_of_not_lt h2
        refine .inr (.inr ⟨h, h1', h2', ?_⟩)
        by_cases h3 : operand3 s = 0
        · rw [if_pos h3]
          exact .inl ⟨h3, rfl⟩
        · rw [if_neg h3]
          exact .inr ⟨Nat.pos_of_ne_zero h3, rfl⟩
  · exact .inl ⟨h, withWindow_fail (by unfold WindowFits at h; simp only [operand0, operand1]; omega)⟩

/-- Everything the read of a field can answer (42_bitfield.md R105). -/
theorem readField_cases (base start width : Nat) (s : State) :
    (∃ W, memRead s.buf (base + firstByte start) (lastByte start width - firstByte start + 1) = some W ∧
      readField base start width s = .next (finishField (readbits W (start - 8 * firstByte start) width) s)) ∨
    (memRead s.buf (base + firstByte start) (lastByte start width - firstByte start + 1) = none ∧
      readField base start width s = .fault .uninitRead) :=
  withBytes_cases s _ _ _

/-- Everything SCANSTEP can answer (43_scanner.md R115). -/
theorem execScanstep_cases (s : State) :
    (Config.bufCap < s.bufLen.toNat ∧ execScanstep s = .next (finish .badWindow s)) ∨
    (s.bufLen.toNat ≤ Config.bufCap ∧ ∃ a, scanAttempt s.buf s.bufLen.toNat s.cursor.toNat = .ok a ∧
      execScanstep s = .next (finish .ok (applyAttempt a s))) ∨
    (s.bufLen.toNat ≤ Config.bufCap ∧ ∃ f, scanAttempt s.buf s.bufLen.toNat s.cursor.toNat = .error f ∧
      execScanstep s = .fault f) := by
  by_cases h : s.bufLen.toNat ≤ Config.bufCap
  · refine .inr ?_
    unfold execScanstep
    rw [withBufLen_pass h]
    cases scanAttempt s.buf s.bufLen.toNat s.cursor.toNat with
    | ok a => exact .inl ⟨h, a, rfl, rfl⟩
    | error f => exact .inr ⟨h, f, rfl, rfl⟩
  · exact .inl ⟨by omega, withBufLen_fail (by omega)⟩

/-- Everything SCANNEXT can answer (43_scanner.md R116). -/
theorem execScannext_cases (s : State) :
    (Config.bufCap < s.bufLen.toNat ∧ execScannext s = .next (finish .badWindow s)) ∨
    (s.bufLen.toNat ≤ Config.bufCap ∧
      ∃ a, scanLoop s.buf s.bufLen.toNat (s.bufLen.toNat - s.cursor.toNat) s.cursor.toNat = .ok a ∧
        execScannext s = .next (finish .ok (applyAttempt a s))) ∨
    (s.bufLen.toNat ≤ Config.bufCap ∧
      ∃ f, scanLoop s.buf s.bufLen.toNat (s.bufLen.toNat - s.cursor.toNat) s.cursor.toNat = .error f ∧
        execScannext s = .fault f) := by
  by_cases h : s.bufLen.toNat ≤ Config.bufCap
  · refine .inr ?_
    unfold execScannext
    rw [withBufLen_pass h]
    cases scanLoop s.buf s.bufLen.toNat (s.bufLen.toNat - s.cursor.toNat) s.cursor.toNat with
    | ok a => exact .inl ⟨h, a, rfl, rfl⟩
    | error f => exact .inr ⟨h, f, rfl, rfl⟩
  · exact .inl ⟨by omega, withBufLen_fail (by omega)⟩

end Sys2Proof.Machine
end

