-- ==== Sys2Proof/Laws/Host.lean ====
section
/-! SUPPORT. Everything a host access, a host statement and a step can answer. -/

namespace Sys2Proof.Machine

/-- Everything a host register write can answer: it writes the register at a mapped offset of an idle block. -/
theorem hostRegWrite_cases {off bits : Nat} {v : Word} {s t : State} (h : hostRegWrite off bits v s = .ok t) :
    s.pending = false ∧ bits = 32 ∧ ∃ r, regAt off = some r ∧ t = writeReg r v s := by
  unfold hostRegWrite regOf at h
  cases hp : s.pending with
  | true => simp [hp] at h
  | false =>
    by_cases hb : bits = 32
    · cases hr : regAt off with
      | none => simp [hp, hb, hr] at h
      | some r =>
        simp only [hp, hb, hr, Bool.false_eq_true, if_false, if_true] at h
        exact ⟨rfl, hb, r, rfl, (Except.ok.inj h).symm⟩
    · simp [hp, hb] at h

/-- Everything a host buffer write can answer: it writes one byte below BUF_CAP of an idle block. -/
theorem hostBufWrite_cases {a : Nat} {v : Byte} {s t : State} (h : hostBufWrite a v s = .ok t) :
    s.pending = false ∧ a < Config.bufCap ∧ t = { s with buf := s.buf.write a v } := by
  unfold hostBufWrite at h
  split at h
  · cases h
  · rename_i hp
    split at h
    · exact ⟨by simpa using hp, by assumption, (Except.ok.inj h).symm⟩
    · cases h

/-- Everything a transaction can answer: a register write, a buffer write, a reset, or a read that leaves the state alone. -/
theorem hostAccess_cases {t : HostAccess} {s u : State} {v : Option Word} (h : hostAccess t s = .ok (u, v)) :
    (∃ r w, s.pending = false ∧ u = writeReg r w s) ∨
    (∃ a b, s.pending = false ∧ a < Config.bufCap ∧ u = { s with buf := s.buf.write a b }) ∨
    u = resetBlock s ∨ u = s := by
  cases t with
  | regWrite off bits w =>
    simp only [hostAccess] at h
    split at h
    · rename_i s' hw
      cases h
      obtain ⟨hp, _, r, _, hr⟩ := hostRegWrite_cases hw
      exact .inl ⟨r, w, hp, hr⟩
    · cases h
  | bufWrite a b =>
    simp only [hostAccess] at h
    split at h
    · rename_i s' hw
      cases h
      exact .inr (.inl ⟨a, b, hostBufWrite_cases hw⟩)
    · cases h
  | regRead off bits =>
    simp only [hostAccess] at h
    split at h <;> cases h
    exact .inr (.inr (.inr rfl))
  | bufRead a =>
    simp only [hostAccess] at h
    split at h <;> cases h
    exact .inr (.inr (.inr rfl))
  | reset => cases h; exact .inr (.inr (.inl rfl))

/-- Everything a host statement can answer: it changes the host alone, or it makes one transaction and goes on. -/
theorem hostExec_cases {o : HostOp} {s t : State} (h : hostExec o s = .next t) :
    (∃ g, t = { s with host := g }) ∨ ∃ x n u v, hostAccess x s = .ok (u, v) ∧ t = hostAdvance n v u := by
  have transact : ∀ {x : HostAccess} {n : Option HostName}, hostTransact x n s = .next t →
      ∃ x n u v, hostAccess x s = .ok (u, v) ∧ t = hostAdvance n v u := by
    intro x n h
    unfold hostTransact at h
    split at h
    · rename_i u v ha
      cases h
      exact ⟨x, n, u, v, ha, rfl⟩
    · cases h
  have jump : ∀ {l : HostLabel}, hostJump l s = .next t → ∃ g, t = { s with host := g } := by
    intro l h
    unfold hostJump at h
    split at h <;> cases h
    exact ⟨_, rfl⟩
  cases o with
  | wreg off e =>
    simp only [hostExec, withExpr] at h
    split at h
    · exact .inr (transact h)
    · cases h
  | rreg off x => exact .inr (transact h)
  | wbuf a i b =>
    simp only [hostExec, withExpr] at h
    split at h
    · exact .inr (transact h)
    · cases h
  | rbuf a x =>
    simp only [hostExec, withExpr] at h
    split at h
    · exact .inr (transact h)
    · cases h
  | bus x n => exact .inr (transact h)
  | letName x e =>
    simp only [hostExec, withExpr] at h
    split at h <;> cases h
    exact .inl ⟨_, rfl⟩
  | wait =>
    simp only [hostExec] at h
    split at h
    · split at h <;> cases h
      · exact .inl ⟨_, rfl⟩
      · exact .inl ⟨_, rfl⟩
    · cases h
  | label l => cases h; exact .inl ⟨_, rfl⟩
  | ifGoto c l =>
    simp only [hostExec] at h
    split at h
    · exact .inl (jump h)
    · cases h; exact .inl ⟨_, rfl⟩
    · cases h
  | goto l => exact .inl (jump h)
  | halt => cases h; exact .inl ⟨_, rfl⟩

/-- Everything a step of the host agent can answer. -/
theorem hostStep_cases {s t : State} (h : hostStep s = .next t) :
    (∃ g, t = { s with host := g }) ∨ ∃ x n u v, hostAccess x s = .ok (u, v) ∧ t = hostAdvance n v u := by
  unfold hostStep at h
  split at h
  · cases h; exact .inl ⟨_, rfl⟩
  · split at h
    · exact hostExec_cases h
    · cases h; exact .inl ⟨_, rfl⟩

/-- A step is the engine's, on the decoded command or on an illegal word, or the host's. -/
theorem step_cases (s : State) :
    (s.pending = true ∧ s.turns.head? ≠ some .host ∧ ∃ i, decode s.latch = .ok i ∧ step s = exec i (takeTurn s)) ∨
    (s.pending = true ∧ s.turns.head? ≠ some .host ∧ ∃ e, decode s.latch = .error e ∧
      step s = .next (finish .badCmd (takeTurn s))) ∨
    ((s.pending = false ∨ s.turns.head? = some .host) ∧ step s = hostStep (takeTurn s)) := by
  unfold step
  by_cases hm : engineMoves s = true
  · have hm' : s.pending = true ∧ s.turns.head? ≠ some .host := by simpa [engineMoves] using hm
    simp only [hm, if_true, engineStep, takeTurn_latch]
    cases hd : decode s.latch with
    | ok i => exact .inl ⟨hm'.1, hm'.2, i, rfl, rfl⟩
    | error e => exact .inr (.inl ⟨hm'.1, hm'.2, e, rfl, rfl⟩)
  · refine .inr (.inr ⟨?_, by simp [hm]⟩)
    cases hp : s.pending with
    | false => exact .inl rfl
    | true => exact .inr (by simpa [engineMoves, hp] using hm)

/-- A buffer write to an idle block below BUF_CAP completes (20_memory.md R51). -/
theorem hostBufWrite_pass {a : Nat} {v : Byte} {s : State} (hp : s.pending = false) (ha : a < Config.bufCap) :
    hostBufWrite a v s = .ok { s with buf := s.buf.write a v } := by simp [hostBufWrite, hp, ha]

/-- A buffer read of a written byte from an idle block completes (20_memory.md R49, R51). -/
theorem hostBufRead_pass {a : Nat} {v : Byte} {s : State} (hp : s.pending = false) (ha : a < Config.bufCap)
    (hb : s.buf.byteAt a = some v) : hostBufRead a s = .ok v := by simp [hostBufRead, hp, ha, hb]

/-! ### The host's names -/

/-- A name just bound has its value. -/
theorem lookupName_bindName_same (ns : List (HostName × Word)) (x : HostName) (v : Word) :
    lookupName (bindName ns x v) x = some v := by simp [bindName, lookupName]

/-- Binding a name leaves every other one alone. -/
theorem lookupName_bindName_other (ns : List (HostName × Word)) {x y : HostName} (v : Word) (h : y ≠ x) :
    lookupName (bindName ns x v) y = lookupName ns y := by
  simp only [bindName, lookupName, h.symm, if_false]
  induction ns with
  | nil => rfl
  | cons p ns ih =>
    rw [List.filter_cons]
    by_cases hp : p.1 = x
    · rw [if_neg (by simpa using hp), ih]
      simp [lookupName, hp, h.symm]
    · rw [if_pos (by simpa using hp)]
      simp only [lookupName, ih]

/-! ### Runs -/

/-- A run of no step. -/
theorem run_zero (s : State) : Host.Core.run Sys2Proof.core 0 s = (.next s : Host.Outcome State Fault Refusal) := rfl

/-- A run whose first step answers a next state goes on from it. -/
theorem run_succ_next {s t : State} (k : Nat) (h : step s = .next t) :
    Host.Core.run Sys2Proof.core (k + 1) s = Host.Core.run Sys2Proof.core k t := by
  have h' : Sys2Proof.core.step s = .next t := h
  simp only [Host.Core.run, h']

/-- A run stops at the first fault. -/
theorem run_succ_fault {s : State} {f : Fault} (k : Nat) (h : step s = .fault f) :
    Host.Core.run Sys2Proof.core (k + 1) s = (.fault f : Host.Outcome State Fault Refusal) := by
  have h' : Sys2Proof.core.step s = .fault f := h
  simp only [Host.Core.run, h']
  rfl

end Sys2Proof.Machine
end

