-- ==== Sys2Proof/Laws/PerInstr.lean ====
section
/-! SUPPORT. Statements made command by command. -/

namespace Sys2Proof.Laws.EncodesInItsFields

/-- The word of a command has RSV = 0 and an OP of the opcode map (30_encoding.md R62, R63). -/
def Statement (i : Instr) : Prop := rsvField (encode i) = 0#28 ∧ (opField (encode i)).toNat ≤ 5

theorem nop : Statement .nop := by unfold Statement; decide

theorem crc : Statement .crc := by unfold Statement; decide

theorem rdbits : Statement .rdbits := by unfold Statement; decide

theorem scanrst : Statement .scanrst := by unfold Statement; decide

theorem scanstep : Statement .scanstep := by unfold Statement; decide

theorem scannext : Statement .scannext := by unfold Statement; decide

end Sys2Proof.Laws.EncodesInItsFields
end

