-- ==== Sys2Proof/Tests/Slice0.lean ====
section
/-! SUPPORT. The model's own tests, with results from spec/95_test_vectors.md, and for every obligation with hypotheses concrete
states that meet them. -/

namespace Sys2Proof.Tests

open Sys2Proof.Machine

/-! ### Helpers -/

/-- A byte sequence from numerals. -/
def bytes (l : List Nat) : List Byte := l.map (BitVec.ofNat 8)

/-- Buffer memory that holds `bs` from address `a` on. -/
def memAt (a : Nat) (bs : List Byte) : Memory := bs.zipIdx.map fun p => (a + p.2, p.1)

/-- A buffer loaded with `bs`, BUF_LEN its length, and a command pending with the engine to move. -/
def loaded (bs : List Byte) : State :=
  { State.reset with buf := memAt 0 bs, bufLen := BitVec.ofNat 32 bs.length, pending := true }

/-- The same, idle. -/
def idle (bs : List Byte) : State := { loaded bs with pending := false }

/-- A state with the four operands set. -/
def withArgs (a0 a1 a2 a3 : Nat) (s : State) : State :=
  { s with arg0 := BitVec.ofNat 32 a0, arg1 := BitVec.ofNat 32 a1, arg2 := BitVec.ofNat 32 a2, arg3 := BitVec.ofNat 32 a3 }

/-- What a next state holds, or nothing. -/
def after {α : Type} (o : Host.Outcome State Fault Refusal) (f : State → α) : Option α :=
  match o with
  | .next s => some (f s)
  | .fault _ => none
  | .refused _ => none

/-- The fault of an outcome, if it is one. -/
def faultOf (o : Host.Outcome State Fault Refusal) : Option Fault :=
  match o with
  | .next _ => none
  | .fault f => some f
  | .refused _ => none

/-- The fault of a host access, if it is one. -/
def accessFault {α : Type} (o : Except Fault α) : Option Fault :=
  match o with
  | .ok _ => none
  | .error f => some f

/-- The value of a host access, if it answers one. -/
def answer {α : Type} (o : Except Fault α) : Option α :=
  match o with
  | .ok v => some v
  | .error _ => none

/-- "123456789". -/
def digits : List Byte := bytes [0x31, 0x32, 0x33, 0x34, 0x35, 0x36, 0x37, 0x38, 0x39]

/-- The two bytes of vectors S5. -/
def b4c0 : List Byte := bytes [0xB4, 0xC0]

/-- F_EMPTY. -/
def fEmpty : List Byte := bytes [0xD3, 0x00, 0x00, 0x47, 0xEA, 0x4B]

/-- F_RSV. -/
def fRsv : List Byte := bytes [0xD3, 0xFC, 0x02, 0xFA, 0x00, 0x94, 0x7E, 0x45]

/-- F_4000. -/
def f4000 : List Byte := bytes [0xD3, 0x00, 0x02, 0xFA, 0x00, 0x94, 0xC8, 0xF9]

/-- F_MSM. -/
def fMsm : List Byte := bytes [0xD3, 0x00, 0x07, 0x43, 0x50, 0x05, 0x00, 0x07, 0x89, 0x00, 0x36, 0xA4, 0x2B]

/-! ### Well-formedness: an ill-formed term for each check -/

theorem test_instr_wf : Instr.wf .nop = true := by decide

theorem test_two_labels_refused : labelsDistinct [.label 0, .halt, .label 0] = false := by decide

theorem test_missing_target_refused : targetsPlaced [.label 0, .goto 1] = false := by decide

theorem test_missing_branch_target_refused :
    targetsPlaced [.ifGoto { lhs := .const 0#32, rel := .eq, rhs := .const 0#32 } 1, .halt] = false := by decide

theorem test_unbound_name_refused : namesBound [.rreg 0x18 0, .wreg 0x08 (.add (.name 0) (.name 1))] = false := by decide

theorem test_ill_formed_program_refused : programWf [.label 0, .goto 1] = false := by decide

theorem test_scanall_well_formed : programWf (asmScanall 0 1 0 [] ++ [.halt]) = true := by decide

/-! ### Decoding: the words of 30_encoding.md R63, and reserved words of R66 -/

theorem test_decode_nop : decodeTableWord 32 0b00000000000000000000000000000000 = some .nop := by decide

theorem test_decode_crc : decodeTableWord 32 0b00000000000000000000000000000001 = some .crc := by decide

theorem test_decode_rdbits : decodeTableWord 32 0b00000000000000000000000000000010 = some .rdbits := by decide

theorem test_decode_scanrst : decodeTableWord 32 0b00000000000000000000000000000011 = some .scanrst := by decide

theorem test_decode_scanstep : decodeTableWord 32 0b00000000000000000000000000000100 = some .scanstep := by decide

theorem test_decode_scannext : decodeTableWord 32 0b00000000000000000000000000000101 = some .scannext := by decide

/-- Vectors C-4, C-5, C-6, C-7: reserved opcodes, and RSV != 0 over a real opcode. -/
theorem test_decode_reserved :
    decodeTableWord 32 0x0000000F = none ∧ decodeTableWord 32 0x00000006 = none ∧
      decodeTableWord 32 0x00000011 = none ∧ decodeTableWord 32 0x80000001 = none := by decide

/-! ### The commands (95_test_vectors.md section 2) -/

/-- C-2: NOP sets ERR back to OK and keeps SCAN_OUT. -/
theorem test_nop : after (exec .nop { State.reset with err := .badWindow, scanOut := .atEnd, pending := true })
    (fun t => statusWord t) = some 0x500#32 := by decide

/-- C-8: an illegal word keeps SCAN_OUT and reports BAD_CMD. -/
theorem test_bad_cmd : after (step (State.withFetchWord { State.reset with scanOut := .atEnd } 32 0x0000000F))
    (fun t => (statusWord t, t.cmd)) = some (0x540#32, 0x0000000F#32) := by decide

/-- CRC-C1. -/
theorem test_crc : after (exec .crc (withArgs 0 9 0 0 (loaded digits))) (fun t => (t.result, t.err)) =
    some (0x00CDE703#32, .ok) := by decide +kernel

/-- CRC-C7: the window's sum does not wrap. -/
theorem test_crc_sum_exact : after (exec .crc (withArgs 0xFFFFFFFF 1 0 0 (loaded digits))) (fun t => t.err) =
    some .badWindow := by decide +kernel

/-- S5: a field across a byte boundary. -/
theorem test_rdbits : after (exec .rdbits (withArgs 0 2 4 8 (loaded b4c0))) (fun t => (t.result, t.err)) =
    some (76#32, .ok) := by decide +kernel

/-- RD-7: the width is checked before the range. -/
theorem test_rdbits_check_order : after (exec .rdbits (withArgs 0 2 8 33 (loaded b4c0))) (fun t => (t.result, t.err)) =
    some (0#32, .badWidth) := by decide +kernel

/-- SR-1. -/
theorem test_scanrst : after (exec .scanrst { State.reset with
      cursor := 21#32, frameOff := 8#32, frameLen := 7#32, frameCount := 2#32, scanOut := .atEnd, bufLen := 21#32 })
    (fun t => (t.cursor, t.frameOff, t.frameLen, t.frameCount, statusWord t, t.bufLen)) =
    some (0#32, 0#32, 0#32, 0#32, 0#32, 21#32) := by decide

/-- SS-9: the reserved bits never enter the length. -/
theorem test_scanstep_masks_the_length : after (exec .scanstep (loaded fRsv))
    (fun t => (statusWord t, t.frameOff, t.frameLen, t.cursor, t.frameCount)) =
    some (0x100#32, 0#32, 2#32, 8#32, 1#32) := by decide +kernel

/-- ST-5: a complete candidate with unwritten bytes. -/
theorem test_scanstep_unwritten : faultOf (exec .scanstep { loaded (bytes [0xD3, 0x00, 0x00]) with bufLen := 6#32 }) =
    some .uninitRead := by decide +kernel

/-- SN-2: two frames back to back (the buffer BOTH), the second found right after the first one's trailer. -/
theorem test_scannext_next_frame : after (exec .scannext { loaded (f4000 ++ fMsm) with cursor := 8#32, frameCount := 1#32 })
    (fun t => (statusWord t, t.frameOff, t.frameLen, t.cursor, t.frameCount)) =
    some (0x100#32, 8#32, 7#32, 21#32, 2#32) := by decide +kernel

/-- SN-7: no preamble. -/
theorem test_scannext_end : after (exec .scannext (loaded (bytes [0x00, 0x11, 0x22])))
    (fun t => (statusWord t, t.cursor, t.frameCount)) = some (0x500#32, 3#32, 0#32) := by decide +kernel

/-- R47: the trailer's bytes in the wrong order leave the residue of vector CRC-13. -/
theorem test_trailer_order : crc24q (bytes [0xD3, 0x00, 0x00, 0x4B, 0xEA, 0x47]) = 0x3F3DD0#24 := by decide +kernel

/-- RB-19: 32 bits over 5 bytes, by the barrel shifter. -/
theorem test_barrel_shift : barrelShift (bytes [0x12, 0x34, 0x56, 0x78, 0x9A]) 7 32 = 0x1A2B3C4D := by decide +kernel

/-! ### The host's accesses (95_test_vectors.md section 2.5) -/

/-- RG-3: BUF_LEN is not clamped. -/
theorem test_buf_len_unclamped : (answer (hostRegWrite 0x1C 32 0xFFFFFFFF#32 State.reset)).bind
    (fun t => answer (hostRegRead 0x1C 32 t)) = some 0xFFFFFFFF#32 := by decide

/-- RG-4, RG-5. -/
theorem test_bad_register_access : accessFault (hostRegRead 0x34 32 State.reset) = some .hostBadAccess ∧
    accessFault (hostRegRead 0x06 32 State.reset) = some .hostBadAccess := by decide

/-- RG-6, RG-7. -/
theorem test_busy : accessFault (hostRegWrite 0x08 32 5#32 (startCommand 1#32 State.reset)) = some .hostHazard ∧
    answer (hostRegRead 0x04 32 (startCommand 1#32 State.reset)) = some 0x00000001#32 := by decide

/-- RG-8, RG-9. -/
theorem test_bad_buffer_access : hostBufRead 0 State.reset = .error .uninitRead ∧
    hostBufWrite Config.bufCap 0#8 State.reset = .error .hostBadAccess := by
  have := bufCap_range
  constructor
  · have h : 0 < Config.bufCap := by omega
    simp [hostBufRead, State.reset, h]
  · simp [hostBufWrite, State.reset]

/-- P5: `IF s1.ERR != 1` falls through on the STATUS value 0x10. -/
theorem test_host_condition :
    after (step { State.reset with
        host := { prog := [.ifGoto { lhs := .errOf 0, rel := .ne, rhs := .const 1#32 } 0, .halt, .label 0], pc := 0,
                  names := [(0, 0x10#32)], halted := false } })
      (fun t => t.host.pc) = some 1 := by decide

/-- The expansion of `RDBITS` (30_encoding.md R74). -/
theorem test_asm_rdbits : asmRdbits (.const 0#32) (.const 2#32) (.const 4#32) (.const 8#32) =
    [.wreg 0x08 (.const 0#32), .wreg 0x0C (.const 2#32), .wreg 0x10 (.const 4#32), .wreg 0x14 (.const 8#32),
      .wreg 0x00 (.const 0x00000002#32)] := by decide

/-! ### Witnesses: for every obligation with hypotheses, states and operands that meet them, clause by clause -/

/-- BUF_LEN one above the capacity. -/
def tooLong : State := { State.reset with bufLen := BitVec.ofNat 32 (Config.bufCap + 1), pending := true }

theorem tooLong_bufLen : tooLong.bufLen.toNat = Config.bufCap + 1 := by
  have := bufCap_range
  simp only [tooLong, BitVec.toNat_ofNat]
  omega

theorem tooLong_lt : Config.bufCap < tooLong.bufLen.toNat := by
  have := tooLong_bufLen
  omega

/-- A short buffer fits every allowed capacity. -/
theorem fits {n : Nat} (h : n ≤ 1029) : n ≤ Config.bufCap := Nat.le_trans h bufCap_range.1

/-- Finitely many written bytes are a written range. -/
theorem written_of {m : Memory} {lo n : Nat} (h : ∀ k, k < n → (m.byteAt (lo + k)).isSome = true) : Written m lo (lo + n) := by
  intro a h1 h2
  have := h (a - lo) (by omega)
  rw [show lo + (a - lo) = a by omega] at this
  exact Option.isSome_iff_exists.1 this

theorem witness_DecodeReadsBackEncode : Instr.wf .rdbits = true := by decide

theorem witness_StepRunsTheDecodedCommand : (loaded digits).pending = true ∧ (loaded digits).turns.head? ≠ some .host ∧
    decode { loaded digits with latch := 0x00000001#32 }.latch = .ok .crc := ⟨rfl, by decide, rfl⟩

theorem witness_OtherwiseTheHostMoves : (idle digits).pending = false ∧
    ({ loaded digits with turns := [.host] }.pending = true ∧ { loaded digits with turns := [.host] }.turns.head? = some .host) := by
  decide

theorem witness_IllegalWordFinishesBadCmd :
    (0x00000010#32).toNat / 16 ≠ 0 ∧ 6 ≤ (0x00000006#32).toNat % 16 ∧ 6 ≤ (0x0000000F#32).toNat % 16 := by decide

theorem witness_WriteOfCmdStartsACommand : (idle digits).pending = false ∧ (loaded digits).pending = true := by decide

theorem witness_PollingHostLetsTheEngineMove :
    (let s := { loaded digits with turns := [.host, .host], host := { HostAgent.idle with halted := true } }
     s.pending = true ∧ s.host.halted = true) ∧
    (let s := { loaded digits with turns := [.host, .engine], host := { HostAgent.idle with prog := [.wait] } }
     s.pending = true ∧ s.host.prog[s.host.pc]? = some .wait) := by decide

/-- The window clauses at their boundary: BUF_LEN just above the capacity, and a window one byte past BUF_LEN. -/
theorem witness_CrcCommand_bad_window :
    Config.bufCap < tooLong.bufLen.toNat ∧
    (let s := withArgs 1 9 0 0 (loaded digits); s.bufLen.toNat < s.arg0.toNat + s.arg1.toNat) :=
  ⟨tooLong_lt, by decide⟩

/-- The last window that fits, the empty one at the end, and their bytes. -/
theorem witness_CrcCommand_ok :
    (let s := withArgs 0 9 0 0 (loaded digits)
     s.bufLen.toNat ≤ Config.bufCap ∧ s.arg0.toNat + s.arg1.toNat ≤ s.bufLen.toNat ∧ digits.length = s.arg1.toNat ∧
       Holds s.buf s.arg0.toNat digits) ∧
    (let s := withArgs 9 0 0 0 (loaded digits)
     s.bufLen.toNat ≤ Config.bufCap ∧ s.arg0.toNat + s.arg1.toNat ≤ s.bufLen.toNat ∧ ([] : List Byte).length = s.arg1.toNat ∧
       Holds s.buf s.arg0.toNat []) :=
  ⟨⟨fits (by decide), by decide, by decide, by unfold Holds; decide⟩,
    ⟨fits (by decide), by decide, by decide, by unfold Holds; decide⟩⟩

/-- A window whose last byte is unwritten. -/
theorem witness_CrcCommand_unwritten :
    let s := { withArgs 0 10 0 0 (loaded digits) with bufLen := 10#32 }
    s.bufLen.toNat ≤ Config.bufCap ∧ s.arg0.toNat + s.arg1.toNat ≤ s.bufLen.toNat ∧
      ∃ a, s.arg0.toNat ≤ a ∧ a < s.arg0.toNat + s.arg1.toNat ∧ s.buf.byteAt a = none :=
  ⟨fits (by decide), by decide, 9, by decide⟩

theorem witness_RdbitsCommand_bad_window :
    Config.bufCap < tooLong.bufLen.toNat ∧
    (let s := withArgs 1 2 0 40 (loaded b4c0); s.bufLen.toNat < s.arg0.toNat + s.arg1.toNat) :=
  ⟨tooLong_lt, by decide⟩

theorem witness_RdbitsCommand_bad_width :
    let s := withArgs 0 2 0 33 (loaded b4c0)
    s.bufLen.toNat ≤ Config.bufCap ∧ s.arg0.toNat + s.arg1.toNat ≤ s.bufLen.toNat ∧ 32 < s.arg3.toNat :=
  ⟨fits (by decide), by decide, by decide⟩

theorem witness_RdbitsCommand_out_of_range :
    let s := withArgs 0 2 10 7 (loaded b4c0)
    s.bufLen.toNat ≤ Config.bufCap ∧ s.arg0.toNat + s.arg1.toNat ≤ s.bufLen.toNat ∧ s.arg3.toNat ≤ 32 ∧
      8 * s.arg1.toNat < s.arg2.toNat + s.arg3.toNat :=
  ⟨fits (by decide), by decide, by decide, by decide⟩

/-- A field that ends with the window's last bit, in a window whose first byte may be unwritten, and a field of width 0. -/
theorem witness_RdbitsCommand_ok :
    (let s := { withArgs 0 2 9 7 (loaded b4c0) with buf := [(1, 0xC0#8)] }
     s.bufLen.toNat ≤ Config.bufCap ∧ s.arg0.toNat + s.arg1.toNat ≤ s.bufLen.toNat ∧ s.arg3.toNat ≤ 32 ∧
       s.arg2.toNat + s.arg3.toNat ≤ 8 * s.arg1.toNat ∧ b4c0.length = s.arg1.toNat ∧
       ∀ k, k < b4c0.length → 0 < s.arg3.toNat → s.arg2.toNat / 8 ≤ k → k ≤ (s.arg2.toNat + s.arg3.toNat - 1) / 8 →
         s.buf.byteAt (s.arg0.toNat + k) = b4c0[k]?) ∧
    (let s := { withArgs 0 2 16 0 (loaded b4c0) with buf := [] }
     s.bufLen.toNat ≤ Config.bufCap ∧ s.arg0.toNat + s.arg1.toNat ≤ s.bufLen.toNat ∧ s.arg3.toNat ≤ 32 ∧
       s.arg2.toNat + s.arg3.toNat ≤ 8 * s.arg1.toNat ∧ b4c0.length = s.arg1.toNat ∧
       ∀ k, k < b4c0.length → 0 < s.arg3.toNat → s.arg2.toNat / 8 ≤ k → k ≤ (s.arg2.toNat + s.arg3.toNat - 1) / 8 →
         s.buf.byteAt (s.arg0.toNat + k) = b4c0[k]?) :=
  ⟨⟨fits (by decide), by decide, by decide, by decide, by decide, by decide⟩,
    ⟨fits (by decide), by decide, by decide, by decide, by decide, by decide⟩⟩

theorem witness_RdbitsCommand_unwritten :
    let s := { withArgs 0 2 9 7 (loaded b4c0) with buf := [(0, 0xB4#8)] }
    s.bufLen.toNat ≤ Config.bufCap ∧ s.arg0.toNat + s.arg1.toNat ≤ s.bufLen.toNat ∧ s.arg3.toNat ≤ 32 ∧
      s.arg2.toNat + s.arg3.toNat ≤ 8 * s.arg1.toNat ∧ 0 < s.arg3.toNat ∧
      ∃ a, s.arg0.toNat + s.arg2.toNat / 8 ≤ a ∧ a ≤ s.arg0.toNat + (s.arg2.toNat + s.arg3.toNat - 1) / 8 ∧
        s.buf.byteAt a = none :=
  ⟨fits (by decide), by decide, by decide, by decide, by decide, 1, by decide⟩

theorem witness_LongBufLenIsRefused : Config.bufCap < tooLong.bufLen.toNat := tooLong_lt

/-- The cursor at the end, and past it. -/
theorem witness_ScanstepAtTheEnd :
    (loaded fEmpty).bufLen.toNat ≤ Config.bufCap ∧
      (loaded fEmpty).bufLen.toNat ≤ { loaded fEmpty with cursor := 6#32 }.cursor.toNat ∧
      (loaded fEmpty).bufLen.toNat ≤ { loaded fEmpty with cursor := 9#32 }.cursor.toNat :=
  ⟨fits (by decide), by decide, by decide⟩

/-- SS-4: the last byte of the buffer is no preamble. -/
theorem witness_ScanstepSkipsAWrongPreamble :
    let s := { loaded (bytes [0xD3, 0x00]) with cursor := 1#32 }
    s.bufLen.toNat ≤ Config.bufCap ∧ s.cursor.toNat < s.bufLen.toNat ∧ s.buf.byteAt s.cursor.toNat = some 0#8 ∧ 0#8 ≠ 0xD3#8 :=
  ⟨fits (by decide), by decide, by decide, by decide⟩

/-- SS-2 and SS-3: a preamble with no byte, and with one byte, after it. -/
theorem witness_ScanstepSkipsAMissingHeader :
    (let s := loaded (bytes [0xD3])
     s.bufLen.toNat ≤ Config.bufCap ∧ s.cursor.toNat < s.bufLen.toNat ∧ s.bufLen.toNat < s.cursor.toNat + 3 ∧
       s.buf.byteAt s.cursor.toNat = some 0xD3#8) ∧
    (let s := loaded (bytes [0xD3, 0x00])
     s.bufLen.toNat ≤ Config.bufCap ∧ s.cursor.toNat < s.bufLen.toNat ∧ s.bufLen.toNat < s.cursor.toNat + 3 ∧
       s.buf.byteAt s.cursor.toNat = some 0xD3#8) :=
  ⟨⟨fits (by decide), by decide, by decide, by decide⟩, ⟨fits (by decide), by decide, by decide, by decide⟩⟩

/-- SS-5 and SS-12: the header alone, and one byte short of the frame. -/
theorem witness_ScanstepSkipsAnIncompleteFrame :
    (let s := loaded (bytes [0xD3, 0x00, 0x00])
     s.bufLen.toNat ≤ Config.bufCap ∧ s.cursor.toNat + 3 ≤ s.bufLen.toNat ∧ s.buf.byteAt s.cursor.toNat = some 0xD3#8 ∧
       s.buf.byteAt (s.cursor.toNat + 1) = some 0#8 ∧ s.buf.byteAt (s.cursor.toNat + 2) = some 0#8 ∧
       s.bufLen.toNat < s.cursor.toNat + (((0#8).toNat * 256 + (0#8).toNat) % 1024 + 6)) ∧
    (let s := { loaded fEmpty with bufLen := 5#32 }
     s.bufLen.toNat ≤ Config.bufCap ∧ s.cursor.toNat + 3 ≤ s.bufLen.toNat ∧ s.buf.byteAt s.cursor.toNat = some 0xD3#8 ∧
       s.buf.byteAt (s.cursor.toNat + 1) = some 0#8 ∧ s.buf.byteAt (s.cursor.toNat + 2) = some 0#8 ∧
       s.bufLen.toNat < s.cursor.toNat + (((0#8).toNat * 256 + (0#8).toNat) % 1024 + 6)) :=
  ⟨⟨fits (by decide), by decide, by decide, by decide, by decide, by decide⟩,
    ⟨fits (by decide), by decide, by decide, by decide, by decide, by decide⟩⟩

/-- SS-8: a candidate that ends exactly with the buffer. -/
theorem witness_ScanstepSkipsABadChecksum :
    let B := bytes [0xD3, 0x00, 0x00, 0x47, 0xEA, 0x4C]
    let s := loaded B
    s.bufLen.toNat ≤ Config.bufCap ∧ B.length = ((0#8).toNat * 256 + (0#8).toNat) % 1024 + 6 ∧
      s.cursor.toNat + B.length ≤ s.bufLen.toNat ∧ Holds s.buf s.cursor.toNat B ∧ B[0]? = some 0xD3#8 ∧ B[1]? = some 0#8 ∧
      B[2]? = some 0#8 ∧ crc24q B ≠ 0#24 :=
  ⟨fits (by decide), by decide, by decide, by unfold Holds; decide, by decide, by decide, by decide, by decide +kernel⟩

/-- SS-9 shown valid: F_RSV alone in its buffer. -/
theorem validFrameAt_fRsv : ValidFrameAt (loaded fRsv).buf 8 0 2 :=
  ⟨by decide, by decide, ⟨0xFC#8, 0x02#8, by decide, by decide, by decide⟩,
    fRsv, by decide, by unfold Holds; decide, by decide +kernel⟩

theorem witness_ScanstepEmitsAValidFrame :
    (loaded fRsv).bufLen.toNat ≤ Config.bufCap ∧
      ValidFrameAt (loaded fRsv).buf (loaded fRsv).bufLen.toNat (loaded fRsv).cursor.toNat 2 :=
  ⟨fits (by decide), validFrameAt_fRsv⟩

/-- One byte of noise, then a valid frame. -/
def noisyRsv : State := loaded (0x55#8 :: fRsv)

theorem witness_ScannextEmitsTheFirstValidFrame :
    noisyRsv.bufLen.toNat ≤ Config.bufCap ∧ Written noisyRsv.buf noisyRsv.cursor.toNat noisyRsv.bufLen.toNat ∧
      noisyRsv.cursor.toNat ≤ 1 ∧ ValidFrameAt noisyRsv.buf noisyRsv.bufLen.toNat 1 2 ∧
      ∀ q K, noisyRsv.cursor.toNat ≤ q → q < 1 → ¬ ValidFrameAt noisyRsv.buf noisyRsv.bufLen.toNat q K := by
  refine ⟨fits (by decide), written_of (lo := 0) (n := 9) (by decide), by decide,
    ⟨by decide, by decide, ⟨0xFC#8, 0x02#8, by decide, by decide, by decide⟩,
      fRsv, by decide, by unfold Holds; decide, by decide +kernel⟩, ?_⟩
  intro q K _ h ⟨_, hp, _⟩
  obtain rfl : q = 0 := by omega
  exact absurd hp (by decide)

/-- S4's buffer, with no preamble in it. -/
def noPreamble : State := loaded (bytes [0x00, 0x11, 0x22])

theorem witness_NoPreambleNoFrame :
    noPreamble.bufLen.toNat ≤ Config.bufCap ∧
      ∀ a, noPreamble.cursor.toNat ≤ a → a < noPreamble.bufLen.toNat → ∃ b, noPreamble.buf.byteAt a = some b ∧ b ≠ 0xD3#8 := by
  refine ⟨fits (by decide), fun a _ h => ?_⟩
  have h : a < 3 := h
  interval_cases a
  · exact ⟨0x00#8, by decide⟩
  · exact ⟨0x11#8, by decide⟩
  · exact ⟨0x22#8, by decide⟩

theorem witness_ScannextWithoutAFrameEnds :
    noPreamble.bufLen.toNat ≤ Config.bufCap ∧ Written noPreamble.buf noPreamble.cursor.toNat noPreamble.bufLen.toNat ∧
      ∀ q K, noPreamble.cursor.toNat ≤ q → ¬ ValidFrameAt noPreamble.buf noPreamble.bufLen.toNat q K := by
  refine ⟨fits (by decide), written_of (lo := 0) (n := 3) (by decide), fun q K _ hv => ?_⟩
  have h : q + (K + 6) ≤ 3 := hv.1
  omega

/-- F_4000, whose reserved bits are 0, ending exactly with the buffer; and a payload of no byte. -/
theorem witness_BuiltFrameIsEmittedWithItsPayload :
    (let P := bytes [0xFA, 0x00]
     P.length ≤ 1023 ∧ (loaded f4000).bufLen.toNat ≤ Config.bufCap ∧
       (loaded f4000).cursor.toNat + (P.length + 6) ≤ (loaded f4000).bufLen.toNat ∧
       Holds (loaded f4000).buf (loaded f4000).cursor.toNat (frameOf 0#6 P)) ∧
    (([] : List Byte).length ≤ 1023 ∧ (loaded fEmpty).bufLen.toNat ≤ Config.bufCap ∧
       (loaded fEmpty).cursor.toNat + (([] : List Byte).length + 6) ≤ (loaded fEmpty).bufLen.toNat ∧
       Holds (loaded fEmpty).buf (loaded fEmpty).cursor.toNat (frameOf 0#6 [])) :=
  ⟨⟨by decide, fits (by decide), by decide, by unfold Holds; decide +kernel⟩,
    ⟨by decide, fits (by decide), by decide, by unfold Holds; decide +kernel⟩⟩

/-- The two clauses: a cursor one below BUF_LEN, and one at BUF_LEN. -/
theorem witness_CursorMovesForwardWithinTheBuffer :
    (let s := { noPreamble with cursor := 2#32 }
     after (exec .scanstep s) (fun t => t.err) = some .ok ∧ s.cursor.toNat < s.bufLen.toNat) ∧
    (let s := { noPreamble with cursor := 3#32 }
     after (exec .scannext s) (fun t => t.err) = some .ok ∧ s.bufLen.toNat ≤ s.cursor.toNat) := by decide +kernel

theorem witness_EmittedFramesAreValid :
    after (exec .scanstep (loaded fRsv)) (fun t => (t.err, t.scanOut)) = some (.ok, .frame) ∧
      after (exec .scannext noisyRsv) (fun t => (t.err, t.scanOut)) = some (.ok, .frame) := by decide +kernel

theorem witness_ScanOverWrittenBytesCompletes :
    noisyRsv.bufLen.toNat ≤ Config.bufCap ∧ Written noisyRsv.buf noisyRsv.cursor.toNat noisyRsv.bufLen.toNat :=
  ⟨fits (by decide), written_of (lo := 0) (n := 9) (by decide)⟩

theorem witness_FailingCommandChangesOnlyErrAndBusy :
    after (engineStep { withArgs 0 10 0 0 (loaded digits) with latch := 0x00000001#32 }) (fun t => t.err) = some .badWindow ∧
      after (engineStep { loaded digits with latch := 0x00000006#32 }) (fun t => t.err) = some .badCmd := by decide +kernel

theorem witness_CommandsWriteOnlyTheirListedState :
    after (exec .rdbits (withArgs 0 2 4 8 (loaded b4c0))) (fun t => t.err) = some .ok ∧
      after (exec .scanstep noPreamble) (fun t => t.scanOut) = some .skipPreamble ∧
      after (exec .crc (withArgs 0 9 0 0 (loaded digits))) (fun t => t.err) = some .ok := by decide +kernel

/-- A scanner command that fails while SCAN_OUT still holds an earlier FRAME. -/
theorem witness_CommandsWriteOnlyTheirListedState_error :
    let s := { tooLong with scanOut := .frame, frameCount := 1#32 }
    after (exec .scanstep s) (fun t => (t.err, t.scanOut)) = some (.badWindow, .frame) := by
  have h : Config.bufCap < { tooLong with scanOut := .frame, frameCount := 1#32 }.bufLen.toNat := tooLong_lt
  rcases execScanstep_cases { tooLong with scanOut := .frame, frameCount := 1#32 } with ⟨_, e⟩ | ⟨hn, _⟩ | ⟨hn, _⟩
  · exact congrArg (fun o => after o fun t => (t.err, t.scanOut)) e
  · exact absurd hn (Nat.not_le.2 h)
  · exact absurd hn (Nat.not_le.2 h)

theorem witness_OnlyAnUnwrittenByteStopsACommand :
    faultOf (exec .crc { withArgs 0 10 0 0 (loaded digits) with bufLen := 10#32 }) = some .uninitRead := by decide +kernel

/-- The three ways a SCANSTEP meets an unwritten byte: at the cursor; a length byte of a header that just fits; and, as in ST-5, a
byte of a candidate that just fits. -/
theorem witness_OnlyAnUnwrittenByteStopsACommand_scanstep :
    (let s := { loaded [] with bufLen := 1#32 }
     s.bufLen.toNat ≤ Config.bufCap ∧ s.cursor.toNat < s.bufLen.toNat ∧ s.buf.byteAt s.cursor.toNat = none) ∧
    (let s := { loaded (bytes [0xD3, 0x00]) with bufLen := 3#32 }
     s.bufLen.toNat ≤ Config.bufCap ∧ s.cursor.toNat < s.bufLen.toNat ∧ s.buf.byteAt s.cursor.toNat = some 0xD3#8 ∧
       s.cursor.toNat + 3 ≤ s.bufLen.toNat ∧ s.buf.byteAt (s.cursor.toNat + 2) = none) ∧
    (let s := { loaded (bytes [0xD3, 0x00, 0x00]) with bufLen := 6#32 }
     s.bufLen.toNat ≤ Config.bufCap ∧ s.cursor.toNat < s.bufLen.toNat ∧ s.buf.byteAt s.cursor.toNat = some 0xD3#8 ∧
       s.cursor.toNat + 3 ≤ s.bufLen.toNat ∧ s.buf.byteAt (s.cursor.toNat + 1) = some 0#8 ∧
       s.buf.byteAt (s.cursor.toNat + 2) = some 0#8 ∧
       s.cursor.toNat + (((0#8).toNat * 256 + (0#8).toNat) % 1024 + 6) ≤ s.bufLen.toNat ∧
       ∃ a, s.cursor.toNat ≤ a ∧ a < s.cursor.toNat + (((0#8).toNat * 256 + (0#8).toNat) % 1024 + 6) ∧
         s.buf.byteAt a = none) :=
  ⟨⟨fits (by decide), by decide, by decide⟩, ⟨fits (by decide), by decide, by decide, by decide, by decide⟩,
    ⟨fits (by decide), by decide, by decide, by decide, by decide, by decide, by decide, 3, by decide⟩⟩

/-- A loaded buffer with a scanner command pending meets the invariant, and its step answers a next state. -/
theorem stateInv_scan : StateInv (State.withFetchWord { idle fEmpty with scanOut := .noAttempt } 32 4) where
  memWf := by decide
  memBelowCap := fun c hc => by
    have h : c.1 < 6 := by
      revert c
      decide
    have := bufCap_range
    omega
  latchIsCmd := rfl
  cursorBound := Nat.zero_le _
  frameInBuf := fits (n := 6) (by omega)
  frameLenBound := by decide
  cursorPastFrame := by decide
  clearBeforeScan := by decide
  crcBound := by decide

theorem witness_EveryStepKeepsTheInvariant :
    StateInv (State.withFetchWord { idle fEmpty with scanOut := .noAttempt } 32 4) ∧
      after (step (State.withFetchWord { idle fEmpty with scanOut := .noAttempt } 32 4)) (fun t => t.scanOut) = some .frame :=
  ⟨stateInv_scan, by decide +kernel⟩

theorem witness_InternalRegistersAreUnobservable :
    SameVisible (loaded digits) { loaded digits with crcReg := 0xCDE703#32, bitAcc := 76#32 } := rfl

theorem witness_CrcRegisterHolds24Bits : (0xFFFFFF#32).toNat < 2 ^ 24 := by decide

theorem witness_ChecksumIsLinear : b4c0.length = (bytes [0x12, 0x34]).length := by decide

/-- The first bit and the last bit of F_EMPTY. -/
theorem witness_SingleBitFlipIsDetected : crc24q fEmpty = 0#24 ∧ 0 < 8 * fEmpty.length ∧ 47 < 8 * fEmpty.length := by
  decide +kernel

/-- The last byte of F_EMPTY and the first one. -/
theorem witness_OneByteChangeIsDetected :
    (0x4B#8 ≠ 0x4C#8 ∧ crc24q (bytes [0xD3, 0x00, 0x00, 0x47, 0xEA] ++ 0x4B#8 :: []) = 0#24) ∧
    (0xD3#8 ≠ 0x53#8 ∧ crc24q ([] ++ 0xD3#8 :: bytes [0x00, 0x00, 0x47, 0xEA, 0x4B]) = 0#24) := by decide +kernel

/-- A field up to the last bit, and the empty field at the end. -/
theorem witness_FieldIsTheSumOfItsBits : 9 + 7 ≤ 8 * b4c0.length ∧ 16 + 0 ≤ 8 * b4c0.length := by decide

/-- One bit, the last; and the whole window. -/
theorem witness_BarrelShifterGivesTheField : (1 ≤ 1 ∧ 15 + 1 ≤ 8 * b4c0.length) ∧ (1 ≤ 16 ∧ 0 + 16 ≤ 8 * b4c0.length) := by
  decide

theorem witness_FieldsSplitAndAlignedFieldsAreBytes : 4 + (3 + 9) ≤ 8 * b4c0.length ∧ b4c0[1]? = some 0xC0#8 := by decide

theorem witness_RegisterMapReads : State.reset.pending = false := by decide

theorem witness_CapsReadsTheCapacity : State.reset.pending = false := by decide

theorem witness_RegisterWritesFollowTheirAccess : State.reset.pending = false := by decide

theorem witness_BadRegisterAccessFaults : State.reset.pending = false ∧ 0x06 % 4 ≠ 0 ∧ 0x30 < 0x31 ∧ 0x30 < 0x34 ∧ 8 ≠ 32 := by
  decide

theorem witness_BusyHazard : (loaded digits).pending = true ∧ ¬ (0x00 = 0x04 ∧ 32 = 32) ∧ ¬ (0x04 = 0x04 ∧ 16 = 32) := by decide

/-- The last address, a written byte, an unwritten one, and the first address past the buffer. -/
theorem witness_BufferAccesses : (idle digits).pending = false ∧ Config.bufCap - 1 < Config.bufCap ∧
    (8 < Config.bufCap ∧ (idle digits).buf.byteAt 8 = some 0x39#8) ∧
    (9 < Config.bufCap ∧ (idle digits).buf.byteAt 9 = none) ∧ Config.bufCap ≤ Config.bufCap := by
  have := bufCap_range
  refine ⟨rfl, by omega, ⟨by omega, by decide⟩, ⟨by omega, by decide⟩, Nat.le_refl _⟩

theorem stateInv_idle : StateInv (idle digits) where
  memWf := by decide
  memBelowCap := fun c hc => by
    have h : c.1 < 9 := by
      revert c
      decide
    have := bufCap_range
    omega
  latchIsCmd := rfl
  cursorBound := Nat.zero_le _
  frameInBuf := fits (n := 6) (by omega)
  frameLenBound := by decide
  cursorPastFrame := by decide
  clearBeforeScan := by decide
  crcBound := by decide

theorem witness_RewritingAHeldValueChangesNothing :
    (StateInv (idle digits) ∧ (idle digits).pending = false ∧ (idle digits).buf.byteAt 0 = some 0x31#8) ∧
    ((idle digits).pending = false ∧ 0x1C ≠ 0x00 ∧ hostRegRead 0x1C 32 (idle digits) = .ok 9#32) :=
  ⟨⟨stateInv_idle, rfl, by decide⟩, rfl, by decide, rfl⟩

/-- One host program for each of the four clauses. -/
theorem witness_HostStatementsMakeTheirTransactions :
    (let s := { idle digits with host := { HostAgent.idle with prog := [.wreg 0x1C (.const 5#32)] } }
     s.pending = false ∧ s.host.halted = false ∧ s.host.prog[s.host.pc]? = some (.wreg 0x1C (.const 5#32)) ∧
       evalExpr s.host.names (.const 5#32) = .ok 5#32 ∧ hostRegWrite 0x1C 32 5#32 s = .ok { s with bufLen := 5#32 }) ∧
    (let s := { idle digits with host := { HostAgent.idle with prog := [.rreg 0x1C 0] } }
     s.pending = false ∧ s.host.halted = false ∧ s.host.prog[s.host.pc]? = some (.rreg 0x1C 0) ∧
       hostRegRead 0x1C 32 s = .ok 9#32) ∧
    (let s := { idle digits with host := { HostAgent.idle with prog := [.wbuf (.name 4) 2 7#8], names := [(4, 6#32)] } }
     s.pending = false ∧ s.host.halted = false ∧ s.host.prog[s.host.pc]? = some (.wbuf (.name 4) 2 7#8) ∧
       evalExpr s.host.names (.name 4) = .ok 6#32 ∧
       hostBufWrite ((6#32).toNat + 2) 7#8 s = .ok { s with buf := s.buf.write 8 7#8 }) ∧
    (let s := { idle digits with host := { HostAgent.idle with prog := [.rbuf (.const 8#32) 0] } }
     s.pending = false ∧ s.host.halted = false ∧ s.host.prog[s.host.pc]? = some (.rbuf (.const 8#32) 0) ∧
       evalExpr s.host.names (.const 8#32) = .ok 8#32 ∧ hostBufRead (8#32).toNat s = .ok 0x39#8) := by
  refine ⟨⟨rfl, rfl, rfl, rfl, rfl⟩, ⟨rfl, rfl, rfl, rfl⟩, ⟨rfl, rfl, rfl, rfl, ?_⟩, rfl, rfl, rfl, rfl, ?_⟩
  · exact hostBufWrite_pass rfl (Nat.lt_of_lt_of_le (by decide : (6#32).toNat + 2 < 1029) bufCap_range.1)
  · exact hostBufRead_pass rfl (Nat.lt_of_lt_of_le (by decide : (8#32).toNat < 1029) bufCap_range.1) (by decide)

/-- One host program for each of the six clauses. -/
theorem witness_HostControlTouchesTheHostAlone :
    (let s := { idle digits with host := { HostAgent.idle with prog := [.letName 0 (.sub (.const 0#32) (.const 1#32))] } }
     s.pending = false ∧ s.host.halted = false ∧
       s.host.prog[s.host.pc]? = some (.letName 0 (.sub (.const 0#32) (.const 1#32))) ∧
       evalExpr s.host.names (.sub (.const 0#32) (.const 1#32)) = .ok 0xFFFFFFFF#32) ∧
    { HostAgent.idle with prog := [.wait] }.prog[0]? = some .wait ∧
    (let p : List HostOp := [.label 3, .goto 3]
     { HostAgent.idle with prog := p, pc := 1 }.prog[1]? = some (.goto 3) ∧ labelIndex p 3 0 = some 0) ∧
    (let c : HostCond := { lhs := .scanOutOf 0, rel := .eq, rhs := .const 5#32 }
     let p : List HostOp := [.ifGoto c 3, .label 3]
     { HostAgent.idle with prog := p }.prog[0]? = some (.ifGoto c 3) ∧ evalCond [(0, 0x500#32)] c = .ok true ∧
       labelIndex p 3 0 = some 1 ∧ evalCond [(0, 0x100#32)] c = .ok false) ∧
    { HostAgent.idle with prog := [.halt] }.prog[0]? = some .halt :=
  ⟨⟨rfl, rfl, rfl, rfl⟩, rfl, ⟨rfl, rfl⟩, ⟨rfl, rfl, rfl, rfl⟩, rfl⟩

theorem witness_StepOnAnIllegalWordFinishesBadCmd :
    (let s := { loaded digits with latch := 0x00000011#32 }
     s.pending = true ∧ s.turns.head? ≠ some .host ∧ s.latch.toNat / 16 ≠ 0) ∧
    (let s := { loaded digits with latch := 0x00000006#32, turns := [.engine, .host] }
     s.pending = true ∧ s.turns.head? ≠ some .host ∧ 6 ≤ s.latch.toNat % 16) := by decide

end Sys2Proof.Tests
end

section
/-! The turn list: which agent a step belongs to (00_scope.md R3, 20_memory.md R56; log entry 3). -/

namespace Sys2Proof.Machine

theorem takeTurn_of_not_pending {s : State} (hp : s.pending = false) : takeTurn s = s := by
  simp [takeTurn, hp]

theorem takeTurn_of_pending {s : State} (hp : s.pending = true) : takeTurn s = { s with turns := s.turns.tail } := by
  simp [takeTurn, hp]

/-- The host's branch of `step_cases`: the engine's two branches need a pending command with no host turn first. -/
theorem step_eq_hostStep_takeTurn {s : State} (h : s.pending = false ∨ s.turns.head? = some .host) :
    step s = hostStep (takeTurn s) := by
  have not_engine : ¬(s.pending = true ∧ s.turns.head? ≠ some .host) := by
    rintro ⟨hp, ht⟩
    exact h.elim (by simp [hp]) ht
  obtain ⟨hp, ht, -⟩ | ⟨hp, ht, -⟩ | ⟨-, hs⟩ := step_cases s
  · exact absurd ⟨hp, ht⟩ not_engine
  · exact absurd ⟨hp, ht⟩ not_engine
  · exact hs

/-- Settles O6: the step is the host's on `takeTurn s`, which uses up a turn exactly when a command is pending. -/
theorem otherwiseTheHostMoves : Obligations.OtherwiseTheHostMoves := by
  refine ⟨fun s hp => ?_, fun s hp ht => ?_⟩
  · rw [step_eq_hostStep_takeTurn (.inl hp), takeTurn_of_not_pending hp]
  · rw [step_eq_hostStep_takeTurn (.inr ht), takeTurn_of_pending hp]

end Sys2Proof.Machine
end

section
/-! Everything a command that completes can leave behind, and the frame of every command (10_state.md R44). -/

namespace Sys2Proof.Machine

/-- What a scanner command's deciding attempt in `BUF[0 .. n)` from cursor `o` can be: a skip or END, which emits no frame and stays
at or below `max o n`, or FRAME, with its frame inside `BUF[0 .. n)` and the cursor past it; and the CRC shift register it leaves
behind is that of some byte sequence (43_scanner.md R117, R118). -/
structure DecidesScan (n o : Nat) (a : Attempt) : Prop where
  verdict :
    (a.out ≠ .frame ∧ a.out ≠ .noAttempt ∧ a.frame = none ∧ a.next ≤ max o n) ∨
    (a.out = .frame ∧ ∃ p L, L ≤ 1023 ∧ a.frame = some (p, L) ∧ a.next = p + (L + 6) ∧ p + (L + 6) ≤ n)
  crcOfBytes : ∀ r, a.crc = some r → ∃ B, r = crcRegister B

/-- What an attempt leaves in the CRC shift register is the register of the candidate's bytes (43_scanner.md R112). -/
theorem scanAttempt_crc {m : Memory} {n o : Nat} {a : Attempt} (h : scanAttempt m n o = .ok a) :
    ∀ r, a.crc = some r → ∃ B, r = crcRegister B := by
  obtain ⟨-, rfl⟩ | ⟨-, b0, -, ⟨-, rfl⟩ | ⟨-, -, rfl⟩ | ⟨-, -, b1, b2, -, -, ⟨-, rfl⟩ | ⟨-, B, -, rfl⟩⟩⟩ :=
    scanAttempt_cases h
  case inr.inr.inr.inr =>
    have hcrc : (judge o (payloadLen b1 b2) B).crc = some (crcRegister B) := by
      obtain ⟨-, hj⟩ | ⟨-, hj⟩ := judge_cases o (payloadLen b1 b2) B <;> rw [hj]
    exact fun r hr => ⟨B, Option.some.inj (hr.symm.trans hcrc)⟩
  all_goals exact fun r hr => nomatch hr

/-- SCANNEXT leaves the CRC shift register of the last checksum one of its attempts computed (43_scanner.md R116). -/
theorem scanLoop_crc {m : Memory} {n : Nat} (k : Nat) : ∀ {o : Nat} {a : Attempt}, scanLoop m n k o = .ok a →
    ∀ r, a.crc = some r → ∃ B, r = crcRegister B := by
  induction k with
  | zero =>
    intro o a h
    cases h
    exact fun r hr => nomatch hr
  | succ k ih =>
    intro o a h
    rw [scanLoop] at h
    split at h
    · cases h
    · rename_i z hz
      split at h
      · cases h
        exact scanAttempt_crc hz
      · split at h
        · cases h
        · rename_i y hy
          cases h
          intro r hr
          obtain hr | ⟨-, hr⟩ : y.crc = some r ∨ y.crc = none ∧ z.crc = some r := by simpa using hr
          · exact ih hy r hr
          · exact scanAttempt_crc hz r hr

theorem scanAttempt_decides {m : Memory} {n o : Nat} {a : Attempt} (h : scanAttempt m n o = .ok a) : DecidesScan n o a where
  verdict := by
    obtain ⟨-, hout, hnext, hf, -⟩ | ⟨ho, hout, hnext, hf⟩ | ⟨-, hout, L, hL, hf, hnext, hle⟩ := scanAttempt_progress h
    · exact .inl ⟨by simp [hout], by simp [hout], hf, by omega⟩
    · refine .inl ⟨?_, ?_, hf, by omega⟩ <;> obtain hout | hout | hout := hout <;> simp [hout]
    · exact .inr ⟨hout, o, L, hL, hf, hnext, hle⟩
  crcOfBytes := scanAttempt_crc h

theorem scanLoop_decides {m : Memory} {n o : Nat} {a : Attempt} (h : scanLoop m n (n - o) o = .ok a) : DecidesScan n o a where
  verdict := by
    obtain ⟨hout, hnext, hf⟩ | ⟨hout, p, L, -, hL, hf, hnext, hle, -⟩ := scanLoop_cases _ rfl h
    · exact .inl ⟨by simp [hout], by simp [hout], hf, by omega⟩
    · exact .inr ⟨hout, p, L, hL, hf, hnext, hle⟩
  crcOfBytes := scanLoop_crc _ h

/-- Everything a command that completes can leave behind: an error, or what its own rule writes (40_command_common.md R85). -/
theorem exec_cases {i : Instr} {s t : State} (h : exec i s = .next t) :
    (∃ c, t = finish c s) ∨
    (i = .crc ∧ ∃ B, t = finish .ok { s with result := (crc24q B).setWidth 32, crcReg := crcRegister B }) ∨
    (i = .rdbits ∧ ∃ v, t = finishField v s) ∨
    (i = .scanrst ∧ t = finish .ok (clearScan s)) ∨
    ((i = .scanstep ∨ i = .scannext) ∧ s.bufLen.toNat ≤ Config.bufCap ∧
      ∃ a, DecidesScan s.bufLen.toNat s.cursor.toNat a ∧ t = finish .ok (applyAttempt a s)) := by
  cases i with
  | nop => cases h; exact .inl ⟨.ok, rfl⟩
  | crc =>
    simp only [exec] at h
    obtain ⟨-, he⟩ | ⟨-, B, -, he⟩ | ⟨-, -, he⟩ := execCrc_cases s <;> cases he.symm.trans h
    · exact .inl ⟨_, rfl⟩
    · exact .inr (.inl ⟨rfl, B, rfl⟩)
  | rdbits =>
    simp only [exec] at h
    obtain ⟨-, he⟩ | ⟨-, -, he⟩ | ⟨-, -, -, he⟩ | ⟨-, -, -, ⟨-, he⟩ | ⟨-, he⟩⟩ := execRdbits_cases s <;> rw [he] at h
    · cases h; exact .inl ⟨_, rfl⟩
    · cases h; exact .inl ⟨_, rfl⟩
    · cases h; exact .inl ⟨_, rfl⟩
    · cases h; exact .inr (.inr (.inl ⟨rfl, 0, rfl⟩))
    · obtain ⟨W, -, he⟩ | ⟨-, he⟩ := readField_cases s.arg0.toNat s.arg2.toNat s.arg3.toNat s <;> cases he.symm.trans h
      exact .inr (.inr (.inl ⟨rfl, _, rfl⟩))
  | scanrst => cases h; exact .inr (.inr (.inr (.inl ⟨rfl, rfl⟩)))
  | scanstep =>
    simp only [exec] at h
    obtain ⟨-, he⟩ | ⟨hn, a, ha, he⟩ | ⟨-, f, -, he⟩ := execScanstep_cases s <;> cases he.symm.trans h
    · exact .inl ⟨_, rfl⟩
    · exact .inr (.inr (.inr (.inr ⟨.inl rfl, hn, a, scanAttempt_decides ha, rfl⟩)))
  | scannext =>
    simp only [exec] at h
    obtain ⟨-, he⟩ | ⟨hn, a, ha, he⟩ | ⟨-, f, -, he⟩ := execScannext_cases s <;> cases he.symm.trans h
    · exact .inl ⟨_, rfl⟩
    · exact .inr (.inr (.inr (.inr ⟨.inr rfl, hn, a, scanLoop_decides ha, rfl⟩)))

/-- A scanner command that emits no frame leaves the frame registers alone (43_scanner.md R115, R116). -/
theorem DecidesScan.frame_registers {n o : Nat} {a : Attempt} (h : DecidesScan n o a) (hout : a.out ≠ .frame) (s : State) :
    (applyAttempt a s).frameOff = s.frameOff ∧ (applyAttempt a s).frameLen = s.frameLen ∧
      (applyAttempt a s).frameCount = s.frameCount := by
  obtain ⟨-, -, hf, -⟩ | ⟨hfr, -⟩ := h.verdict
  · simp [applyAttempt_skip s hf]
  · exact absurd hfr hout

/-- Settles O30: each case of `exec_cases` writes only what the command's rule lists. -/
theorem commandsWriteOnlyTheirListedState : Obligations.CommandsWriteOnlyTheirListedState := by
  intro s t i h
  obtain ⟨c, rfl⟩ | ⟨rfl, B, rfl⟩ | ⟨rfl, v, rfl⟩ | ⟨rfl, rfl⟩ | ⟨hi, -, a, ha, rfl⟩ := exec_cases h
  · simp
  · simp
  · simp
  · simp
  · have hframe := ha.frame_registers (s := s)
    obtain rfl | rfl := hi <;> simpa using hframe

end Sys2Proof.Machine
end

section
/-! The CRC shift register stays below 2^24 (41_checksum.md R93). -/

namespace Sys2Proof.Machine

/-- A register below 2^24 has no bit above bit 23. -/
theorem toNat_lt_two_pow_24_iff (r : Word) : r.toNat < 2 ^ 24 ↔ ∀ i, 24 ≤ i → r.getLsbD i = false :=
  ⟨fun h _ hi => Nat.testBit_lt_two_pow (h.trans_le (Nat.pow_le_pow_right (by decide) hi)),
    fun h => Nat.lt_pow_two_of_testBit _ h⟩

/-- CRC_POLY has bit 24 set and no bit above it (00_scope.md R6). -/
theorem crcPoly_getLsbD_above {i : Nat} (hi : 25 ≤ i) : Config.crcPoly.getLsbD i = false :=
  Nat.testBit_lt_two_pow (lt_of_lt_of_le (by decide : Config.crcPoly.toNat < 2 ^ 25) (Nat.pow_le_pow_right (by decide) hi))

/-- The polynomial clears bit 24 whenever the shift sets it (41_checksum.md R91). -/
theorem crcRound_lt {r : Word} (h : r.toNat < 2 ^ 24) : (crcRound r).toNat < 2 ^ 24 := by
  rw [toNat_lt_two_pow_24_iff] at h ⊢
  have above : ∀ i, 25 ≤ i → (r <<< 1).getLsbD i = false := fun i hi => by simp [h (i - 1) (by omega)]
  intro i hi
  unfold crcRound
  split
  · rename_i h24
    obtain rfl | hi := Nat.eq_or_lt_of_le hi
    · rw [BitVec.getLsbD_xor, h24]; decide
    · rw [BitVec.getLsbD_xor, above i hi, crcPoly_getLsbD_above hi]; rfl
  · rename_i h24
    obtain rfl | hi := Nat.eq_or_lt_of_le hi
    · simpa using h24
    · exact above i hi

theorem crcRounds_lt (k : Nat) : ∀ {r : Word}, r.toNat < 2 ^ 24 → (crcRounds k r).toNat < 2 ^ 24 := by
  induction k with
  | zero => exact id
  | succ k ih => exact fun h => ih (crcRound_lt h)

/-- The byte enters at bits 23:16, below bit 24 (41_checksum.md R91). -/
theorem crcByte_lt {r : Word} (b : Byte) (h : r.toNat < 2 ^ 24) : (crcByte r b).toNat < 2 ^ 24 := by
  refine crcRounds_lt 8 ?_
  rw [toNat_lt_two_pow_24_iff] at h ⊢
  intro i hi
  have hb : b.getLsbD (i - 16) = false := BitVec.getLsbD_of_ge b _ (by omega)
  simp [h i hi, hb]

theorem crcRegister_lt (B : List Byte) : (crcRegister B).toNat < 2 ^ 24 :=
  List.foldlRecOn B crcByte (motive := fun r => r.toNat < 2 ^ 24) (by decide) fun _ h b _ => crcByte_lt b h

end Sys2Proof.Machine
end

section
/-! Every operation that makes up a step keeps the invariant of the machine. -/

namespace Sys2Proof.Machine

/-! ### Operations that touch no field the invariant reads, or LATCH and CMD alike -/

theorem StateInv.finish {s : State} (c : ErrCode) (h : StateInv s) : StateInv (finish c s) := { h with }

theorem StateInv.finishField {s : State} (v : Nat) (h : StateInv s) : StateInv (finishField v s) := { h with }

theorem StateInv.setHost {s : State} (g : HostAgent) (h : StateInv s) : StateInv { s with host := g } := { h with }

theorem StateInv.hostAdvance {s : State} (x : Option HostName) (v : Option Word) (h : StateInv s) :
    StateInv (hostAdvance x v s) := { h with }

theorem StateInv.takeTurn {s : State} (h : StateInv s) : StateInv (takeTurn s) := by
  unfold Machine.takeTurn
  split
  · exact { h with }
  · exact h

theorem StateInv.writeReg {s : State} (r : Reg) (v : Word) (h : StateInv s) : StateInv (writeReg r v s) := by
  cases r with
  | cmd => exact { h with latchIsCmd := rfl }
  | arg0 | arg1 | arg2 | arg3 | bufLen => exact { h with }
  | status | result | cursor | frameOff | frameLen | frameCount | caps => exact h

/-! ### Operations that touch the buffer, the scanner's registers or the CRC shift register -/

theorem StateInv.writeBuf {s : State} {a : Nat} (b : Byte) (h : StateInv s) (ha : a < Config.bufCap) :
    StateInv { s with buf := s.buf.write a b } :=
  { h with
    memWf := Memory.wf_write a b h.memWf
    memBelowCap := fun c hc => by
      obtain rfl | hc := Memory.mem_write hc
      · exact ha
      · exact h.memBelowCap c hc }

theorem StateInv.crcResult {s : State} (v : Word) (B : List Byte) (h : StateInv s) :
    StateInv { s with result := v, crcReg := crcRegister B } := { h with crcBound := crcRegister_lt B }

/-- Reset leaves an empty buffer, and every register the invariant reads at 0 (10_state.md R43). -/
theorem StateInv.resetBlock (s : State) : StateInv (resetBlock s) where
  memWf := Memory.wf_reset
  memBelowCap := fun _ hc => nomatch hc
  latchIsCmd := rfl
  cursorBound := Nat.zero_le _
  frameInBuf := le_trans (by decide : 6 ≤ 1029) bufCap_range.1
  frameLenBound := Nat.zero_le _
  cursorPastFrame := fun h => nomatch h
  clearBeforeScan := fun _ => ⟨rfl, rfl, rfl, rfl⟩
  crcBound := Nat.two_pow_pos 24

theorem StateInv.clearScan {s : State} (h : StateInv s) : StateInv (clearScan s) :=
  { h with
    cursorBound := Nat.zero_le _
    frameInBuf := le_trans (by decide : 6 ≤ 1029) bufCap_range.1
    frameLenBound := Nat.zero_le _
    cursorPastFrame := fun h => nomatch h
    clearBeforeScan := fun _ => ⟨rfl, rfl, rfl, rfl⟩ }

/-- An offset or a length of the buffer is held exactly by a 32-bit register, since BUF_CAP is at most 2^29 (00_scope.md R7). -/
theorem toNat_ofNat_of_le_bufCap {k : Nat} (h : k ≤ Config.bufCap) : (BitVec.ofNat 32 k).toNat = k := by
  have := bufCap_range.2
  rw [BitVec.toNat_ofNat, Nat.mod_eq_of_lt (by omega)]

/-- A skip moves the cursor within BUF, and FRAME puts the frame and the cursor past it inside BUF (43_scanner.md R117, R118). -/
theorem StateInv.applyAttempt {s : State} {a : Attempt} (h : StateInv s) (hn : s.bufLen.toNat ≤ Config.bufCap)
    (ha : DecidesScan s.bufLen.toNat s.cursor.toNat a) : StateInv (applyAttempt a s) := by
  have hcrc : (a.crc.getD s.crcReg).toNat < 2 ^ 24 := by
    cases hc : a.crc with
    | none => exact h.crcBound
    | some r =>
      obtain ⟨B, rfl⟩ := ha.crcOfBytes r hc
      exact crcRegister_lt B
  have hcur := h.cursorBound
  obtain ⟨hframe, hnone, hf, hnext⟩ | ⟨hframe, p, L, hL, hf, hnext, hle⟩ := ha.verdict
  · have hb : a.next ≤ Config.bufCap := by omega
    rw [applyAttempt_skip s hf]
    exact { h with
      cursorBound := (toNat_ofNat_of_le_bufCap hb).trans_le hb
      cursorPastFrame := fun e => absurd e hframe
      clearBeforeScan := fun e => absurd e hnone
      crcBound := hcrc }
  · have hoff := toNat_ofNat_of_le_bufCap (k := p) (by omega)
    have hlen := toNat_ofNat_of_le_bufCap (k := L) (by omega)
    have hcursor := toNat_ofNat_of_le_bufCap (k := a.next) (by omega)
    rw [applyAttempt_frame s hf]
    exact { h with
      cursorBound := by simp only [hcursor]; omega
      frameInBuf := by simp only [hoff, hlen]; omega
      frameLenBound := hlen.trans_le hL
      cursorPastFrame := fun _ => by simp only [hoff, hlen, hcursor]; exact hnext
      clearBeforeScan := fun e => nomatch hframe.symm.trans e
      crcBound := hcrc }

/-! ### The engine, the host, and a step -/

theorem StateInv.exec {i : Instr} {s t : State} (h : StateInv s) (he : exec i s = .next t) : StateInv t := by
  obtain ⟨c, rfl⟩ | ⟨-, B, rfl⟩ | ⟨-, v, rfl⟩ | ⟨-, rfl⟩ | ⟨-, hn, a, ha, rfl⟩ := exec_cases he
  · exact h.finish c
  · exact (h.crcResult _ B).finish .ok
  · exact h.finishField v
  · exact h.clearScan.finish .ok
  · exact (h.applyAttempt hn ha).finish .ok

theorem StateInv.hostAccess {x : HostAccess} {s u : State} {v : Option Word} (h : StateInv s)
    (hx : hostAccess x s = .ok (u, v)) : StateInv u := by
  obtain ⟨r, w, -, rfl⟩ | ⟨a, b, -, ha, rfl⟩ | rfl | rfl := hostAccess_cases hx
  · exact h.writeReg r w
  · exact h.writeBuf b ha
  · exact .resetBlock s
  · exact h

theorem StateInv.hostStep {s t : State} (h : StateInv s) (hs : hostStep s = .next t) : StateInv t := by
  obtain ⟨g, rfl⟩ | ⟨x, n, u, v, hx, rfl⟩ := hostStep_cases hs
  · exact h.setHost g
  · exact (h.hostAccess hx).hostAdvance n v

/-- Settles O32: the three cases of `step_cases`, each from the state after the turn is taken. -/
theorem everyStepKeepsTheInvariant : Obligations.EveryStepKeepsTheInvariant := by
  intro s t h hst
  obtain ⟨-, -, i, -, hs⟩ | ⟨-, -, e, -, hs⟩ | ⟨-, hs⟩ := step_cases s <;> rw [hs] at hst
  · exact h.takeTurn.exec hst
  · cases hst
    exact h.takeTurn.finish .badCmd
  · exact h.takeTurn.hostStep hst

/-- Settles O33: the reset state is the reset of a block whose host is idle and which has no turns left. -/
theorem resetMeetsTheInvariant : Obligations.ResetMeetsTheInvariant := StateInv.resetBlock State.reset

end Sys2Proof.Machine
end

section
/-! The CRC shift register and the bit-field accumulator are never read: every operation gives states that agree on everything but
these two registers outcomes that agree on everything but them (10_state.md R40, R41). -/

namespace Sys2Proof.Machine

/-- A state with other values in the two internal registers. -/
def setInternal (c b : Word) (s : State) : State := { s with crcReg := c, bitAcc := b }

theorem sameVisible_iff (s t : State) : SameVisible s t ↔ ∃ c b, t = setInternal c b s :=
  ⟨fun h => ⟨t.crcReg, t.bitAcc, h⟩, by rintro ⟨c, b, rfl⟩; rfl⟩

@[simp] theorem setInternal_latch (c b : Word) (s : State) : (setInternal c b s).latch = s.latch := rfl
@[simp] theorem setInternal_host (c b : Word) (s : State) : (setInternal c b s).host = s.host := rfl

/-! ### Operations on the state -/

theorem sameVisible_finish {s t : State} (k : ErrCode) (h : SameVisible s t) : SameVisible (finish k s) (finish k t) := by
  obtain ⟨c, b, rfl⟩ := (sameVisible_iff s t).1 h
  rfl

theorem sameVisible_takeTurn {s t : State} (h : SameVisible s t) : SameVisible (takeTurn s) (takeTurn t) := by
  obtain ⟨c, b, rfl⟩ := (sameVisible_iff s t).1 h
  cases hp : s.pending with
  | false => rwa [takeTurn_of_not_pending hp, takeTurn_of_not_pending (s := setInternal c b s) hp]
  | true => rw [takeTurn_of_pending hp, takeTurn_of_pending (s := setInternal c b s) hp]; rfl

theorem sameVisible_hostAdvance {s t : State} (x : Option HostName) (v : Option Word) (h : SameVisible s t) :
    SameVisible (hostAdvance x v s) (hostAdvance x v t) := by
  obtain ⟨c, b, rfl⟩ := (sameVisible_iff s t).1 h
  rfl

theorem sameVisible_applyAttempt {s t : State} (a : Attempt) (h : SameVisible s t) :
    SameVisible (applyAttempt a s) (applyAttempt a t) := by
  obtain ⟨c, b, rfl⟩ := (sameVisible_iff s t).1 h
  cases hf : a.frame with
  | none => rw [applyAttempt_skip _ hf, applyAttempt_skip _ hf]; rfl
  | some f => rw [applyAttempt_frame _ hf, applyAttempt_frame _ hf]; rfl

theorem sameVisible_writeReg {s t : State} (r : Reg) (v : Word) (h : SameVisible s t) :
    SameVisible (writeReg r v s) (writeReg r v t) := by
  obtain ⟨c, b, rfl⟩ := (sameVisible_iff s t).1 h
  cases r <;> rfl

/-- No register of the map shows the two internal ones. -/
theorem readReg_setInternal (c b : Word) (s : State) (r : Reg) : readReg (setInternal c b s) r = readReg s r := by
  cases r <;> rfl

/-! ### The commands -/

theorem sameOutcome_ite {p : Prop} [Decidable p] {x x' y y' : Host.Outcome State Fault Refusal}
    (hx : SameOutcome x x') (hy : SameOutcome y y') : SameOutcome (if p then x else y) (if p then x' else y') := by
  split
  · exact hx
  · exact hy

theorem sameOutcome_withBufLen {s t : State} {k k' : Host.Outcome State Fault Refusal} (h : SameVisible s t)
    (hk : SameOutcome k k') : SameOutcome (withBufLen s k) (withBufLen t k') := by
  obtain ⟨c, b, rfl⟩ := (sameVisible_iff s t).1 h
  exact sameOutcome_ite hk (sameVisible_finish .badWindow h)

theorem sameOutcome_withWindow {s t : State} {k k' : Host.Outcome State Fault Refusal} (base n : Nat) (h : SameVisible s t)
    (hk : SameOutcome k k') : SameOutcome (withWindow s base n k) (withWindow t base n k') := by
  obtain ⟨c, b, rfl⟩ := (sameVisible_iff s t).1 h
  exact sameOutcome_withBufLen h (sameOutcome_ite hk (sameVisible_finish .badWindow h))

theorem sameOutcome_withBytes {s t : State} {k k' : List Byte → Host.Outcome State Fault Refusal} (a n : Nat)
    (h : SameVisible s t) (hk : ∀ B, SameOutcome (k B) (k' B)) : SameOutcome (withBytes s a n k) (withBytes t a n k') := by
  obtain ⟨c, b, rfl⟩ := (sameVisible_iff s t).1 h
  obtain ⟨B, hB, hs⟩ | ⟨hB, hs⟩ := withBytes_cases s a n k <;>
    obtain ⟨B', hB', ht⟩ | ⟨hB', ht⟩ := withBytes_cases (setInternal c b s) a n k'
  · cases hB.symm.trans hB'
    rw [hs, ht]
    exact hk B
  · cases hB.symm.trans hB'
  · cases hB.symm.trans hB'
  · rw [hs, ht]
    exact rfl

theorem sameOutcome_finishScan {s t : State} (x : Except Fault Attempt) (h : SameVisible s t) :
    SameOutcome (finishScan s x) (finishScan t x) := by
  cases x with
  | error f => exact rfl
  | ok a => exact sameVisible_finish .ok (sameVisible_applyAttempt a h)

/-- No command reads the two internal registers: each overwrites one or leaves it alone. -/
theorem sameOutcome_exec {s t : State} (i : Instr) (h : SameVisible s t) : SameOutcome (exec i s) (exec i t) := by
  obtain ⟨c, b, rfl⟩ := (sameVisible_iff s t).1 h
  cases i with
  | nop => exact sameVisible_finish .ok h
  | crc => exact sameOutcome_withWindow _ _ h (sameOutcome_withBytes _ _ h fun B => rfl)
  | rdbits =>
    refine sameOutcome_withWindow _ _ h ?_
    refine sameOutcome_ite (sameVisible_finish .badWidth h) ?_
    refine sameOutcome_ite (sameVisible_finish .outOfRange h) ?_
    exact sameOutcome_ite rfl (sameOutcome_withBytes _ _ h fun W => rfl)
  | scanrst => exact rfl
  | scanstep => exact sameOutcome_withBufLen h (sameOutcome_finishScan _ h)
  | scannext => exact sameOutcome_withBufLen h (sameOutcome_finishScan _ h)

/-! ### The host -/

/-- Two answers to a transaction that the host cannot tell apart. -/
def SameAccess : Except Fault (State × Option Word) → Except Fault (State × Option Word) → Prop
  | .ok (s, v), .ok (t, w) => SameVisible s t ∧ v = w
  | .error f, .error g => f = g
  | _, _ => False

theorem hostRegRead_setInternal (off bits : Nat) (c b : Word) (s : State) :
    hostRegRead off bits (setInternal c b s) = hostRegRead off bits s := by
  unfold hostRegRead
  simp only [readReg_setInternal]
  rfl

theorem hostBufRead_setInternal (a : Nat) (c b : Word) (s : State) :
    hostBufRead a (setInternal c b s) = hostBufRead a s := rfl

theorem sameAccess_hostAccess {s t : State} (x : HostAccess) (h : SameVisible s t) :
    SameAccess (hostAccess x s) (hostAccess x t) := by
  obtain ⟨c, b, rfl⟩ := (sameVisible_iff s t).1 h
  have hp : (setInternal c b s).pending = s.pending := rfl
  cases x with
  | regWrite off bits v =>
    simp only [hostAccess, hostRegWrite, hp]
    cases s.pending with
    | true => exact rfl
    | false =>
      cases regOf off bits with
      | error f => exact rfl
      | ok r => exact ⟨sameVisible_writeReg r v h, rfl⟩
  | regRead off bits =>
    simp only [hostAccess, hostRegRead_setInternal]
    cases hostRegRead off bits s with
    | error f => exact rfl
    | ok w => exact ⟨h, rfl⟩
  | bufWrite a v =>
    by_cases ha : a < Config.bufCap <;>
      simp only [hostAccess, hostBufWrite, hp, ha, if_true, if_false] <;>
      cases s.pending
    case pos.false => exact ⟨rfl, rfl⟩
    all_goals exact rfl
  | bufRead a =>
    simp only [hostAccess, hostBufRead_setInternal]
    cases hostBufRead a s with
    | error f => exact rfl
    | ok w => exact ⟨h, rfl⟩
  | reset => exact ⟨rfl, rfl⟩

theorem sameOutcome_hostTransact {s t : State} (a : HostAccess) (x : Option HostName) (h : SameVisible s t) :
    SameOutcome (hostTransact a x s) (hostTransact a x t) := by
  have ha := sameAccess_hostAccess a h
  unfold hostTransact
  cases hs : hostAccess a s <;> cases ht : hostAccess a t <;> rw [hs, ht] at ha
  · exact ha
  · exact ha
  · exact ha
  · rename_i u w
    obtain ⟨hu, hv⟩ : SameVisible u.1 w.1 ∧ u.2 = w.2 := ha
    change SameVisible (hostAdvance x u.2 u.1) (hostAdvance x w.2 w.1)
    rw [hv]
    exact sameVisible_hostAdvance x w.2 hu

theorem sameOutcome_hostJump {s t : State} (l : HostLabel) (h : SameVisible s t) :
    SameOutcome (hostJump l s) (hostJump l t) := by
  obtain ⟨c, b, rfl⟩ := (sameVisible_iff s t).1 h
  simp only [hostJump, setInternal_host]
  cases labelIndex s.host.prog l 0 with
  | none => exact rfl
  | some k => exact rfl

theorem sameOutcome_withExpr {s t : State} {k k' : Word → Host.Outcome State Fault Refusal} (e : HostExpr)
    (h : SameVisible s t) (hk : ∀ w, SameOutcome (k w) (k' w)) : SameOutcome (withExpr e s k) (withExpr e t k') := by
  obtain ⟨c, b, rfl⟩ := (sameVisible_iff s t).1 h
  simp only [withExpr, setInternal_host]
  cases evalExpr s.host.names e with
  | error x => exact rfl
  | ok w => exact hk w

theorem sameOutcome_hostExec {s t : State} (o : HostOp) (h : SameVisible s t) :
    SameOutcome (hostExec o s) (hostExec o t) := by
  obtain ⟨c, b, rfl⟩ := (sameVisible_iff s t).1 h
  cases o with
  | wreg off v => exact sameOutcome_withExpr v h fun w => sameOutcome_hostTransact _ _ h
  | rreg off x => exact sameOutcome_hostTransact _ _ h
  | wbuf a i v => exact sameOutcome_withExpr a h fun w => sameOutcome_hostTransact _ _ h
  | rbuf a x => exact sameOutcome_withExpr a h fun w => sameOutcome_hostTransact _ _ h
  | bus a x => exact sameOutcome_hostTransact a x h
  | letName x e => exact sameOutcome_withExpr e h fun w => sameVisible_hostAdvance _ _ h
  | wait =>
    simp only [hostExec, hostRegRead_setInternal]
    cases hostRegRead 0x04 32 s with
    | error f => exact rfl
    | ok v => exact sameOutcome_ite h (sameVisible_hostAdvance _ _ h)
  | label l => exact sameVisible_hostAdvance _ _ h
  | ifGoto p l =>
    simp only [hostExec, setInternal_host]
    cases evalCond s.host.names p with
    | error x => exact rfl
    | ok v =>
      cases v with
      | true => exact sameOutcome_hostJump l h
      | false => exact sameVisible_hostAdvance _ _ h
  | goto l => exact sameOutcome_hostJump l h
  | halt => exact rfl

theorem sameOutcome_hostStep {s t : State} (h : SameVisible s t) : SameOutcome (hostStep s) (hostStep t) := by
  obtain ⟨c, b, rfl⟩ := (sameVisible_iff s t).1 h
  simp only [hostStep, setInternal_host]
  refine sameOutcome_ite h ?_
  cases s.host.prog[s.host.pc]? with
  | none => exact h
  | some o => exact sameOutcome_hostExec o h

/-! ### A step -/

theorem sameOutcome_engineStep {s t : State} (h : SameVisible s t) : SameOutcome (engineStep s) (engineStep t) := by
  obtain ⟨c, b, rfl⟩ := (sameVisible_iff s t).1 h
  simp only [engineStep, setInternal_latch]
  cases decode s.latch with
  | ok i => exact sameOutcome_exec i h
  | error e => exact sameVisible_finish .badCmd h

/-- Settles O34: which agent moves does not depend on the two registers, and neither agent's step reads them. -/
theorem internalRegistersAreUnobservable : Obligations.InternalRegistersAreUnobservable := by
  intro s t h
  have hturn := sameVisible_takeTurn h
  have hmoves : engineMoves t = engineMoves s := by
    obtain ⟨c, b, rfl⟩ := (sameVisible_iff s t).1 h
    rfl
  unfold step
  rw [hmoves]
  exact sameOutcome_ite (sameOutcome_engineStep hturn) (sameOutcome_hostStep hturn)

end Sys2Proof.Machine
end

section
/-! The REG space as the host sees it: the layout of STATUS, the register map, and what an access to an idle block answers
(10_state.md R23 to R37). -/

namespace Sys2Proof.Machine

/-! ### STATUS -/

/-- The fields of STATUS at their places (10_state.md R25). -/
theorem statusWord_toNat (s : State) :
    (statusWord s).toNat = s.pending.toNat + 16 * (errBits s.err).toNat + 256 * (scanOutBits s.scanOut).toNat := by
  have hp : s.pending.toNat < 2 ^ 1 := s.pending.toNat_lt
  simp only [statusWord, BitVec.toNat_append, BitVec.toNat_ofNat, BitVec.toNat_ofBool, Nat.zero_mod, Nat.or_zero]
  rw [← Nat.shiftLeft_add_eq_or_of_lt (scanOutBits s.scanOut).isLt, ← Nat.shiftLeft_add_eq_or_of_lt (errBits s.err).isLt,
    ← Nat.shiftLeft_add_eq_or_of_lt hp]
  simp only [Nat.shiftLeft_eq]
  omega

/-- Settles O46: the fields at their places, each with its code (10_state.md R26, R27). -/
theorem statusFieldsAreLaidOut : Obligations.StatusFieldsAreLaidOut := by
  intro s
  rw [statusWord_toNat]
  congr 2
  · cases s.pending <;> rfl
  · cases s.err <;> rfl
  · cases s.scanOut <;> rfl

/-! ### Accesses to an idle block -/

theorem regAt_regOffset (r : Reg) : regAt (regOffset r) = some r := (regAt_eq_some_iff _ r).2 rfl

theorem regOf_regOffset (r : Reg) : regOf (regOffset r) 32 = .ok r := by simp [regOf, regAt_regOffset]

theorem hostRegRead_regOffset {s : State} (hp : s.pending = false) (r : Reg) :
    hostRegRead (regOffset r) 32 s = .ok (readReg s r) := by simp [hostRegRead, regOf_regOffset, hp]

theorem hostRegWrite_regOffset {s : State} (hp : s.pending = false) (r : Reg) (v : Word) :
    hostRegWrite (regOffset r) 32 v s = .ok (writeReg r v s) := by simp [hostRegWrite, regOf_regOffset, hp]

/-- An access reaches no register exactly when it is unaligned, above the map, or not 32 bits wide (10_state.md R37). -/
theorem regOf_eq_error_iff (off bits : Nat) :
    regOf off bits = .error .hostBadAccess ↔ off % 4 ≠ 0 ∨ 0x30 < off ∨ bits ≠ 32 := by
  rw [← or_assoc, ← regAt_eq_none_iff]
  unfold regOf
  by_cases hb : bits = 32
  · cases regAt off <;> simp [hb]
  · simp [hb]

theorem hostRegRead_eq_error_iff {s : State} (hp : s.pending = false) (off bits : Nat) (f : Fault) :
    hostRegRead off bits s = .error f ↔ regOf off bits = .error f := by
  cases h : regOf off bits <;> simp [hostRegRead, h, hp]

theorem hostRegWrite_eq_error_iff {s : State} (hp : s.pending = false) (off bits : Nat) (v : Word) (f : Fault) :
    hostRegWrite off bits v s = .error f ↔ regOf off bits = .error f := by
  cases h : regOf off bits <;> simp [hostRegWrite, h, hp]

/-- Settles O50: an idle block's access faults exactly when it reaches no register. -/
theorem badRegisterAccessFaults : Obligations.BadRegisterAccessFaults := fun _ off bits v hp =>
  ⟨(hostRegRead_eq_error_iff hp off bits _).trans (regOf_eq_error_iff off bits),
    (hostRegWrite_eq_error_iff hp off bits v _).trans (regOf_eq_error_iff off bits)⟩

/-- Settles O47: each of these offsets is that of its register. -/
theorem registerMapReads : Obligations.RegisterMapReads := by
  intro s hp
  have read := hostRegRead_regOffset hp
  exact ⟨read .cmd, read .status, read .arg0, read .arg1, read .arg2, read .arg3, read .result, read .bufLen, read .cursor,
    read .frameOff, read .frameLen, read .frameCount⟩

/-- Settles O48: BUF_CAP fits the register that reads it, and a write of CAPS is ignored. -/
theorem capsReadsTheCapacity : Obligations.CapsReadsTheCapacity :=
  ⟨bufCap_range.1, bufCap_range.2, fun _ v hp =>
    ⟨⟨_, hostRegRead_regOffset hp .caps, toNat_ofNat_of_le_bufCap le_rfl⟩, hostRegWrite_regOffset hp .caps v⟩⟩

/-- Settles O49: each of these offsets is that of its register, and `writeReg` gives what a write of it does. -/
theorem registerWritesFollowTheirAccess : Obligations.RegisterWritesFollowTheirAccess := by
  intro s v hp
  have write := fun r => hostRegWrite_regOffset hp r v
  refine ⟨?_, write .cmd, write .arg0, write .arg1, write .arg2, write .arg3, write .bufLen⟩
  simp only [List.forall_mem_cons, List.not_mem_nil, false_imp_iff, implies_true, and_true]
  exact ⟨write .status, write .result, write .cursor, write .frameOff, write .frameLen, write .frameCount, write .caps⟩

/-! ### Reset values -/

theorem statusWord_resetBlock (s : State) : statusWord (resetBlock s) = 0#32 := by
  change statusWord State.reset = 0#32
  decide

/-- Settles O55: the values of the reset state, and of the block that a reset leaves (10_state.md R43). -/
theorem resetValues : Obligations.ResetValues :=
  ⟨rfl, statusWord_resetBlock State.reset, rfl, rfl, rfl, rfl, rfl, rfl, rfl, rfl, rfl, rfl,
    hostRegRead_regOffset rfl .caps, rfl, rfl, Memory.byteAt_nil,
    fun u => ⟨resetBlock u, rfl, rfl, rfl, statusWord_resetBlock u, rfl, rfl, rfl, rfl⟩⟩

end Sys2Proof.Machine
end

section
/-! The buffer as the host reaches it: what an access to an idle block answers (20_memory.md R49, R51), and that writing a value a
location already holds changes nothing (R53). -/

namespace Sys2Proof.Machine

/-! ### Buffer accesses to an idle block -/

/-- A buffer read of an unwritten byte from an idle block faults (20_memory.md R49). -/
theorem hostBufRead_unwritten {a : Nat} {s : State} (hp : s.pending = false) (ha : a < Config.bufCap)
    (hb : s.buf.byteAt a = none) : hostBufRead a s = .error .uninitRead := by simp [hostBufRead, hp, ha, hb]

theorem hostBufRead_aboveCap {a : Nat} {s : State} (hp : s.pending = false) (ha : Config.bufCap ≤ a) :
    hostBufRead a s = .error .hostBadAccess := by simp [hostBufRead, hp, Nat.not_lt.2 ha]

theorem hostBufWrite_aboveCap {a : Nat} {s : State} (v : Byte) (hp : s.pending = false) (ha : Config.bufCap ≤ a) :
    hostBufWrite a v s = .error .hostBadAccess := by simp [hostBufWrite, hp, Nat.not_lt.2 ha]

/-- Settles O52: an access below BUF_CAP goes through, but for a read of an unwritten byte, and a write changes its own byte
alone. -/
theorem bufferAccesses : Obligations.BufferAccesses := fun s a hp =>
  ⟨fun ha v => ⟨s.buf.write a v, hostBufWrite_pass hp ha, Memory.byteAt_write_same s.buf a v,
      fun _ hb => Memory.byteAt_write_other s.buf v hb⟩,
    fun ha _ hv => hostBufRead_pass hp ha hv,
    fun ha hn => hostBufRead_unwritten hp ha hn,
    fun ha => ⟨fun v => hostBufWrite_aboveCap v hp ha, hostBufRead_aboveCap hp ha⟩⟩

/-! ### Writing the value a location already holds -/

/-- A byte that reads as written is a listed cell. -/
theorem Memory.mem_of_byteAt {m : Memory} {a : Nat} {v : Byte} (h : m.byteAt a = some v) : (a, v) ∈ m := by
  induction m with
  | nil => simp at h
  | cons c m ih =>
    rw [Memory.byteAt_cons] at h
    split at h
    · next hc =>
      obtain rfl := Option.some.inj h
      exact hc ▸ List.mem_cons_self
    · exact List.mem_cons_of_mem _ (ih h)

/-- In canonical memory the write finds the listed cell, since no cell before it has a higher address. -/
theorem Memory.write_eq_self {m : Memory} {a : Nat} {v : Byte} (hm : m.wf) (h : m.byteAt a = some v) : m.write a v = m := by
  induction m with
  | nil => simp at h
  | cons c m ih =>
    obtain ⟨hc, hwf⟩ := List.pairwise_cons.1 hm
    rw [Memory.byteAt_cons] at h
    split at h
    · next heq =>
      obtain rfl := Option.some.inj h
      subst heq
      simp [Memory.write]
    · next hne =>
      have hlt : c.1 < a := hc _ (Memory.mem_of_byteAt h)
      simp [Memory.write, hne, Nat.not_lt.2 hlt.le, ih hwf h]

/-- Everything a register read of an idle block can answer: the value of the register at a mapped offset. -/
theorem hostRegRead_cases {off bits : Nat} {v : Word} {s : State} (hp : s.pending = false) (h : hostRegRead off bits s = .ok v) :
    bits = 32 ∧ ∃ r, off = regOffset r ∧ v = readReg s r := by
  by_cases hb : bits = 32
  · cases hr : regAt off with
    | none => simp [hostRegRead, regOf, hb, hr, hp] at h
    | some r => exact ⟨hb, r, (regAt_eq_some_iff off r).1 hr, by simpa [hostRegRead, regOf, hb, hr, hp] using h.symm⟩
  · simp [hostRegRead, regOf, hb, hp] at h

/-- A read-only register ignores the write, and a read-write one but CMD stores the value it holds (10_state.md R36). -/
theorem writeReg_readReg {r : Reg} (hr : r ≠ .cmd) (s : State) : writeReg r (readReg s r) s = s := by
  cases r with
  | cmd => exact absurd rfl hr
  | _ => rfl

/-- Settles O53: the invariant gives the canonical buffer that the clause about a byte needs. -/
theorem rewritingAHeldValueChangesNothing : Obligations.RewritingAHeldValueChangesNothing := by
  refine ⟨fun s a v hinv hp hv => ?_, fun s off v hp hoff hread => ?_⟩
  · have ha : a < Config.bufCap := hinv.memBelowCap _ (Memory.mem_of_byteAt hv)
    rw [hostBufWrite_pass hp ha, Memory.write_eq_self hinv.memWf hv]
  · obtain ⟨-, r, rfl, rfl⟩ := hostRegRead_cases hp hread
    have hr : r ≠ .cmd := fun h => hoff (h ▸ rfl)
    rw [hostRegWrite_regOffset hp, writeReg_readReg hr]

end Sys2Proof.Machine
end

section
/-! Where a command can stop: only at an unwritten byte of the buffer, after every check has passed (20_memory.md R49, R50,
60_exceptions.md R128). -/

namespace Sys2Proof.Machine

/-- `BUF[0 .. n)` has a byte that was not written since reset. -/
def HasUnwrittenBelow (m : Memory) (n : Nat) : Prop := ∃ a, a < n ∧ m.byteAt a = none

/-- MemRead answers nothing exactly when a byte of its range is unwritten, by the byte's own address. -/
theorem memRead_eq_none_iff_range (m : Memory) (a n : Nat) :
    memRead m a n = none ↔ ∃ b, a ≤ b ∧ b < a + n ∧ m.byteAt b = none := by
  rw [memRead_eq_none_iff]
  constructor
  · rintro ⟨k, hk, hn⟩
    exact ⟨a + k, by omega, by omega, hn⟩
  · rintro ⟨b, hab, hb, hn⟩
    exact ⟨b - a, by omega, by rwa [Nat.add_sub_cancel' hab]⟩

/-- A read inside `BUF[0 .. n)` fails only at an unwritten byte of it. -/
theorem HasUnwrittenBelow.of_memRead {m : Memory} {a k n : Nat} (h : memRead m a k = none) (hle : a + k ≤ n) :
    HasUnwrittenBelow m n := by
  obtain ⟨b, -, hb, hn⟩ := (memRead_eq_none_iff_range m a k).1 h
  exact ⟨b, by omega, hn⟩

/-- Every byte an attempt reads lies inside `BUF[0 .. n)` (20_memory.md R50). -/
theorem HasUnwrittenBelow.of_scanAttempt {m : Memory} {n o : Nat} {f : Fault} (h : scanAttempt m n o = .error f) :
    HasUnwrittenBelow m n := by
  obtain rfl := scanAttempt_fault h
  obtain ⟨ho, h0 | ⟨-, h3, h1 | h2 | ⟨b1, b2, -, -, hL, hB⟩⟩⟩ := (scanAttempt_error_iff m n o).1 h
  · exact ⟨o, ho, h0⟩
  · exact ⟨o + 1, by omega, h1⟩
  · exact ⟨o + 2, by omega, h2⟩
  · exact .of_memRead hB hL

/-- SCANNEXT stops only where one of its attempts does (43_scanner.md R116). -/
theorem scanLoop_fault {m : Memory} {n : Nat} (k : Nat) : ∀ {o : Nat} {f : Fault}, scanLoop m n k o = .error f →
    ∃ p, scanAttempt m n p = .error f := by
  induction k with
  | zero => intro o f h; cases h
  | succ k ih =>
    intro o f h
    rw [scanLoop] at h
    split at h
    · next hz => cases h; exact ⟨o, hz⟩
    · split at h
      · cases h
      · split at h
        · next hz => cases h; exact ih hz
        · cases h

/-- Everything a command can answer: a next state, or UNINIT_READ for an unwritten byte of the buffer. -/
theorem exec_completes_or_stops (i : Instr) (s : State) :
    (∃ t, exec i s = .next t) ∨
    (exec i s = .fault .uninitRead ∧ s.bufLen.toNat ≤ Config.bufCap ∧ HasUnwrittenBelow s.buf s.bufLen.toNat) := by
  cases i with
  | nop => exact .inl ⟨_, rfl⟩
  | scanrst => exact .inl ⟨_, rfl⟩
  | crc =>
    obtain ⟨-, he⟩ | ⟨-, B, -, he⟩ | ⟨⟨hlen, hwin⟩, hB, he⟩ := execCrc_cases s
    · exact .inl ⟨_, he⟩
    · exact .inl ⟨_, he⟩
    · exact .inr ⟨he, hlen, .of_memRead hB hwin⟩
  | rdbits =>
    obtain ⟨-, he⟩ | ⟨-, -, he⟩ | ⟨-, -, -, he⟩ | ⟨⟨hlen, hwin⟩, -, hfield, ⟨-, he⟩ | ⟨hpos, he⟩⟩ := execRdbits_cases s
    · exact .inl ⟨_, he⟩
    · exact .inl ⟨_, he⟩
    · exact .inl ⟨_, he⟩
    · exact .inl ⟨_, he⟩
    · obtain ⟨W, -, hr⟩ | ⟨hW, hr⟩ := readField_cases s.arg0.toNat s.arg2.toNat s.arg3.toNat s
      · exact .inl ⟨_, he.trans hr⟩
      · exact .inr ⟨he.trans hr, hlen, .of_memRead hW (by simp only [firstByte, lastByte]; omega)⟩
  | scanstep =>
    obtain ⟨-, he⟩ | ⟨-, a, -, he⟩ | ⟨hlen, f, hf, he⟩ := execScanstep_cases s
    · exact .inl ⟨_, he⟩
    · exact .inl ⟨_, he⟩
    · obtain rfl := scanAttempt_fault hf
      exact .inr ⟨he, hlen, .of_scanAttempt hf⟩
  | scannext =>
    obtain ⟨-, he⟩ | ⟨-, a, -, he⟩ | ⟨hlen, f, hf, he⟩ := execScannext_cases s
    · exact .inl ⟨_, he⟩
    · exact .inl ⟨_, he⟩
    · obtain ⟨p, hp⟩ := scanLoop_fault _ hf
      obtain rfl := scanAttempt_fault hp
      exact .inr ⟨he, hlen, .of_scanAttempt hp⟩

/-- SCANSTEP stops exactly when its attempt does (43_scanner.md R115). -/
theorem exec_scanstep_fault_iff (s : State) (f : Fault) : exec .scanstep s = .fault f ↔
    s.bufLen.toNat ≤ Config.bufCap ∧ scanAttempt s.buf s.bufLen.toNat s.cursor.toNat = .error f := by
  obtain ⟨hlen, he⟩ | ⟨-, a, ha, he⟩ | ⟨hlen, g, hg, he⟩ := execScanstep_cases s
  · simp [exec, he, hlen]
  · simp [exec, he, ha]
  · simp [exec, he, hg, hlen]

/-- Settles O31: each command stops only at an unwritten byte, and SCANSTEP where its attempt reads one. -/
theorem onlyAnUnwrittenByteStopsACommand : Obligations.OnlyAnUnwrittenByteStopsACommand := by
  refine ⟨fun s i f hf => ?_, fun s i r hr => ?_, fun s => ?_⟩
  · obtain ⟨t, he⟩ | ⟨he, hlen, hun⟩ := exec_completes_or_stops i s <;> cases he.symm.trans hf
    exact ⟨rfl, hlen, hun⟩
  · obtain ⟨t, he⟩ | ⟨he, -⟩ := exec_completes_or_stops i s <;> cases he.symm.trans hr
  · rw [exec_scanstep_fault_iff, scanAttempt_error_iff]
    simp only [payloadLen_eq, memRead_eq_none_iff_range, Config.preamble]

end Sys2Proof.Machine
end

section
/-! The command word: decoding is inverse to encoding, and the words that spell no command (30_encoding.md R62 to R67). -/

namespace Sys2Proof

/-! ### The two fields of a word -/

theorem rsvField_eq_zero_iff (w : BitVec 32) : rsvField w = 0#28 ↔ w.toNat / 16 = 0 := by
  have hw := w.isLt
  rw [rsvField, BitVec.toNat_eq, BitVec.extractLsb'_toNat, Nat.shiftRight_eq_div_pow]
  simp only [BitVec.toNat_ofNat]
  omega

theorem opField_toNat (w : BitVec 32) : (opField w).toNat = w.toNat % 16 := by
  rw [opField, BitVec.extractLsb'_toNat, Nat.shiftRight_zero]

theorem encode_toNat (i : Instr) : (encode i).toNat = (opcode i).toNat :=
  (BitVec.toNat_append 0#28 (opcode i)).trans (by simp)

/-- A word is its two fields: that of a command has RSV = 0 and the command's opcode (30_encoding.md R62). -/
theorem eq_encode_iff (w : BitVec 32) (i : Instr) : w = encode i ↔ rsvField w = 0#28 ∧ opField w = opcode i := by
  have hop := (opcode i).isLt
  rw [rsvField_eq_zero_iff, BitVec.toNat_eq, BitVec.toNat_eq, encode_toNat, opField_toNat]
  omega

/-! ### The opcode map -/

theorem decodeOp_eq_ok_iff (op : BitVec 4) (i : Instr) : decodeOp op = .ok i ↔ op = opcode i := by
  constructor
  · intro h
    unfold decodeOp at h
    split at h <;> cases h <;> exact BitVec.eq_of_toNat_eq ‹_›
  · rintro rfl
    cases i <;> rfl

/-- The opcode map stops at 0x5 (30_encoding.md R63). -/
theorem decodeOp_eq_error_iff (op : BitVec 4) : (∃ e, decodeOp op = .error e) ↔ 6 ≤ op.toNat := by
  unfold decodeOp
  split
  case h_7 => exact iff_of_true ⟨_, rfl⟩ (by grind)
  all_goals exact iff_of_false (fun ⟨_, h⟩ => nomatch h) (by omega)

/-! ### Decoding -/

theorem decode_of_rsvField_eq_zero {w : BitVec 32} (h : rsvField w = 0#28) : decode w = decodeOp (opField w) := by
  simp [decode, h]

theorem decode_of_rsvField_ne_zero {w : BitVec 32} (h : rsvField w ≠ 0#28) : decode w = .error .rsvNonzero := by
  simp [decode, h]

/-- Settles O3: the decoder asks for RSV = 0 and the command's opcode, and those two fields are the whole word. -/
theorem eachCommandHasExactlyOneWord : Obligations.EachCommandHasExactlyOneWord := by
  intro w i
  rw [eq_encode_iff]
  by_cases h : rsvField w = 0#28
  · simp [decode_of_rsvField_eq_zero h, decodeOp_eq_ok_iff, h]
  · simp [decode_of_rsvField_ne_zero h, h]

/-- Settles O4: a nonzero RSV is refused at once, and with RSV = 0 the opcode map decides. -/
theorem illegalWordsAreReservedOnes : Obligations.IllegalWordsAreReservedOnes := by
  intro w
  rw [← opField_toNat, ← decodeOp_eq_error_iff, ne_eq, ← rsvField_eq_zero_iff]
  by_cases h : rsvField w = 0#28
  · simp [decode_of_rsvField_eq_zero h, h]
  · simp [decode_of_rsvField_ne_zero h, h]

/-- Settles O1: the word of a command is its one word. -/
theorem decodeReadsBackEncode : Obligations.DecodeReadsBackEncode := fun i _ =>
  (eachCommandHasExactlyOneWord (encode i) i).2 rfl

/-- Settles O2: each of the six is its command's one word. -/
theorem opcodeMapWordsDecode : Obligations.OpcodeMapWordsDecode := by
  have reads := fun w i => (eachCommandHasExactlyOneWord w i).2
  exact ⟨reads _ .nop rfl, reads _ .crc rfl, reads _ .rdbits rfl, reads _ .scanrst rfl, reads _ .scanstep rfl,
    reads _ .scannext rfl⟩

end Sys2Proof
end

section
/-! The bit reader inside one byte and across two, and the length field of a header (42_bitfield.md R99, R100, 30_encoding.md R70). -/

namespace Sys2Proof.Machine

/-- A field splits into two fields, the first the more significant (42_bitfield.md R100). -/
theorem readbits_add (B : List Byte) (s a b : Nat) :
    readbits B s (a + b) = (readbits B s a <<< b) ||| readbits B (s + a) b := by
  induction b with
  | zero => simp [readbits]
  | succ b ih =>
    change (readbits B s (a + b) <<< 1) ||| sbit B (s + (a + b)) =
      (readbits B s a <<< (b + 1)) ||| ((readbits B (s + a) b <<< 1) ||| sbit B (s + a + b))
    rw [ih, Nat.shiftLeft_or_distrib, ← Nat.shiftLeft_add, Nat.or_assoc, Nat.add_assoc]

/-- Stream bit `8 * j + i` is bit `7 - i` of byte `j` (00_scope.md R10, 42_bitfield.md R99). -/
theorem sbit_of_byte {B : List Byte} {j i : Nat} {v : Byte} (hv : B[j]? = some v) (hi : i < 8) :
    sbit B (8 * j + i) = v.toNat / 2 ^ (7 - i) % 2 := by
  have hdiv : (8 * j + i) / 8 = j := by omega
  have hmod : (8 * j + i) % 8 = i := by omega
  rw [sbit, hdiv, hmod, List.getD_eq_getElem?_getD, hv, Option.getD_some, Nat.and_one_is_mod, Nat.shiftRight_eq_div_pow]

/-- A field of `n` bits inside byte `j`, with `k` bits of the byte after it (42_bitfield.md R100). -/
theorem readbits_of_byte {B : List Byte} {j s n : Nat} {v : Byte} (hv : B[j]? = some v) :
    ∀ k, s + n + k = 8 → readbits B (8 * j + s) n = v.toNat / 2 ^ k % 2 ^ n := by
  induction n with
  | zero => intro k _; rw [readbits, Nat.pow_zero, Nat.mod_one]
  | succ n ih =>
    intro k hk
    have hlast : sbit B (8 * j + s + n) = v.toNat / 2 ^ k % 2 := by
      rw [Nat.add_assoc, sbit_of_byte hv (by omega)]
      congr 3
      omega
    calc readbits B (8 * j + s) (n + 1)
      _ = (v.toNat / 2 ^ (k + 1) % 2 ^ n) <<< 1 ||| v.toNat / 2 ^ k % 2 := by
        rw [readbits, ih (k + 1) (by omega), hlast]
      _ = (v.toNat / 2 ^ k / 2 % 2 ^ n) * 2 + v.toNat / 2 ^ k % 2 := by
        rw [← Nat.shiftLeft_add_eq_or_of_lt (Nat.mod_lt _ (by decide)), Nat.shiftLeft_eq, Nat.pow_succ 2 k,
          ← Nat.div_div_eq_div_mul]
      _ = v.toNat / 2 ^ k % 2 ^ (n + 1) := by
        rw [Nat.pow_succ', Nat.mod_mul]
        omega

/-- Stream bits 14 to 23 of a header are the low 2 bits of its second byte and all of its third (30_encoding.md R70). -/
theorem readbits_header (b0 b1 b2 : Byte) : readbits [b0, b1, b2] 14 10 = b1.toNat % 4 * 256 + b2.toNat := by
  have high : readbits [b0, b1, b2] 14 2 = b1.toNat % 4 := by
    simpa using readbits_of_byte (B := [b0, b1, b2]) (j := 1) (s := 6) (n := 2) rfl 0 rfl
  have low : readbits [b0, b1, b2] 16 8 = b2.toNat := by
    simpa [Nat.mod_eq_of_lt b2.isLt] using readbits_of_byte (B := [b0, b1, b2]) (j := 2) (s := 0) (n := 8) rfl 0 rfl
  rw [readbits_add _ 14 2 8, high, low, ← Nat.shiftLeft_add_eq_or_of_lt b2.isLt, Nat.shiftLeft_eq]

/-- Settles O45: LEN_MASK drops the reserved bits, which the field of bits 14 to 23 leaves out. -/
theorem lengthIsHeaderBits14To23 : Obligations.LengthIsHeaderBits14To23 := by
  intro b0 b1 b2
  have hlen : payloadLen b1 b2 = b1.toNat % 4 * 256 + b2.toNat := by
    have := b2.isLt
    rw [payloadLen_eq]
    omega
  exact ⟨hlen.trans (readbits_header b0 b1 b2).symm, hlen⟩

end Sys2Proof.Machine
end

section
/-! The host's statements as steps of an idle block (30_encoding.md R75). -/

namespace Sys2Proof.Machine

/-! ### The parts of a statement -/

theorem withExpr_of_ok {e : HostExpr} {s : State} {v : Word} (h : evalExpr s.host.names e = .ok v)
    (k : Word → Host.Outcome State Fault Refusal) : withExpr e s k = k v := by simp [withExpr, h]

theorem hostTransact_of_ok {a : HostAccess} {s t : State} {v : Option Word} (h : hostAccess a s = .ok (t, v))
    (x : Option HostName) : hostTransact a x s = .next (hostAdvance x v t) := by simp [hostTransact, h]

theorem hostAccess_regWrite {off bits : Nat} {v : Word} {s t : State} (h : hostRegWrite off bits v s = .ok t) :
    hostAccess (.regWrite off bits v) s = .ok (t, none) := by simp [hostAccess, h]

theorem hostAccess_regRead {off bits : Nat} {v : Word} {s : State} (h : hostRegRead off bits s = .ok v) :
    hostAccess (.regRead off bits) s = .ok (s, some v) := by simp [hostAccess, h]

theorem hostAccess_bufWrite {a : Nat} {v : Byte} {s t : State} (h : hostBufWrite a v s = .ok t) :
    hostAccess (.bufWrite a v) s = .ok (t, none) := by simp [hostAccess, h]

theorem hostAccess_bufRead {a : Nat} {v : Byte} {s : State} (h : hostBufRead a s = .ok v) :
    hostAccess (.bufRead a) s = .ok (s, some (v.setWidth 32)) := by simp [hostAccess, h]

theorem hostJump_of_labelIndex {l : HostLabel} {s : State} {k : Nat} (h : labelIndex s.host.prog l 0 = some k) :
    hostJump l s = .next { s with host := { s.host with pc := k } } := by simp [hostJump, h]

/-- A transaction leaves the host agent as it is: it lies outside the block (00_scope.md R3). -/
theorem hostAccess_host {a : HostAccess} {s t : State} {v : Option Word} (h : hostAccess a s = .ok (t, v)) :
    t.host = s.host := by
  obtain ⟨r, w, -, rfl⟩ | ⟨a, b, -, -, rfl⟩ | rfl | rfl := hostAccess_cases h
  · cases r <;> rfl
  · rfl
  · rfl
  · rfl

/-- Going on without a value moves the host to its next statement alone. -/
theorem hostAdvance_none (s : State) : hostAdvance none none s = { s with host := { s.host with pc := s.host.pc + 1 } } := rfl

/-- Going on with a value binds the name to it and leaves every other binding. -/
theorem hostAdvance_some (x : HostName) (v : Word) (s : State) :
    ∃ ns, hostAdvance (some x) (some v) s = { s with host := { s.host with pc := s.host.pc + 1, names := ns } } ∧
      lookupName ns x = some v ∧ ∀ y, y ≠ x → lookupName ns y = lookupName s.host.names y :=
  ⟨bindName s.host.names x v, rfl, lookupName_bindName_same _ x v, fun _ hy => lookupName_bindName_other _ v hy⟩

/-- A transaction that answers no value changes the block as it does, and moves the host on. -/
theorem hostTransact_of_write {a : HostAccess} {s t : State} (h : hostAccess a s = .ok (t, none)) :
    hostTransact a none s = .next { t with host := { s.host with pc := s.host.pc + 1 } } := by
  rw [hostTransact_of_ok h, hostAdvance_none, hostAccess_host h]

/-! ### Steps of an idle block -/

theorem step_of_host_running {s : State} {o : HostOp} (hp : s.pending = false) (hh : s.host.halted = false)
    (ho : s.host.prog[s.host.pc]? = some o) : step s = hostExec o s := by
  rw [step_eq_hostStep_takeTurn (.inl hp), takeTurn_of_not_pending hp]
  simp [hostStep, hh, ho]

/-- An idle block's STATUS reads with BUSY = 0, so the poll ends (30_encoding.md R75, 10_state.md R39). -/
theorem hostExec_wait {s : State} (hp : s.pending = false) : hostExec .wait s = .next (hostAdvance none none s) := by
  have hread : hostRegRead 0x04 32 s = .ok (statusWord s) := hostRegRead_regOffset hp .status
  simp [hostExec, hread, busyField_statusWord, hp]

/-- Settles O56: each statement makes its transaction on the value of its expression, and goes on with what it answers. -/
theorem hostStatementsMakeTheirTransactions : Obligations.HostStatementsMakeTheirTransactions := by
  intro s hp hh
  have running := fun {o} => step_of_host_running (o := o) hp hh
  refine ⟨fun off e v t ho he hw => ?_, fun off x v ho hr => ?_, fun e a i b t ho he hw => ?_,
    fun e a x v ho he hr => ?_⟩ <;> rw [running ho, hostExec]
  · rw [withExpr_of_ok he, hostTransact_of_write (hostAccess_regWrite hw)]
  · rw [hostTransact_of_ok (hostAccess_regRead hr)]
    simpa only [Host.Outcome.next.injEq] using hostAdvance_some x v s
  · rw [withExpr_of_ok he, hostTransact_of_write (hostAccess_bufWrite hw)]
  · rw [withExpr_of_ok he, hostTransact_of_ok (hostAccess_bufRead hr)]
    simpa only [Host.Outcome.next.injEq] using hostAdvance_some x (v.setWidth 32) s

/-- Settles O57: each statement moves the host, binds a name or halts, and no case names a field of the block. -/
theorem hostControlTouchesTheHostAlone : Obligations.HostControlTouchesTheHostAlone := by
  intro s hp hh
  have running := fun {o} => step_of_host_running (o := o) hp hh
  refine ⟨fun x e v ho he => ?_, fun ho => ?_, fun l k ho hl => ?_, fun c l k ho hc hl => ?_, fun c l ho hc => ?_,
    fun ho => ?_⟩ <;> rw [running ho]
  · rw [hostExec, withExpr_of_ok he]
    simpa only [Host.Outcome.next.injEq] using hostAdvance_some x v s
  · rw [hostExec_wait hp, hostAdvance_none]
  · rw [hostExec, hostJump_of_labelIndex hl]
  · simp only [hostExec, hc, hostJump_of_labelIndex hl]
  · simp only [hostExec, hc, hostAdvance_none]
  · exact ⟨rfl, by simp [runOver, hp]⟩

end Sys2Proof.Machine
end

section
/-! What every command shares: its start by a write of CMD, the engine's step on the word in LATCH, and the checks before it reads the
buffer (40_command_common.md R78 to R87). -/

namespace Sys2Proof.Machine

/-! ### Starting a command -/

/-- STATUS may be read at any time, also while a command is pending (70_reset_and_hazards.md R144). -/
theorem hostRegRead_status (s : State) : hostRegRead 0x04 32 s = .ok (statusWord s) := by
  have hreg : regOf 0x04 32 = .ok .status := regOf_regOffset .status
  simp [hostRegRead, hreg, readReg]

theorem hostRegWrite_of_pending {s : State} (hp : s.pending = true) (off bits : Nat) (v : Word) :
    hostRegWrite off bits v s = .error .hostHazard := by simp [hostRegWrite, hp]

/-- Settles O8: CMD stands at offset 0x00, and its write is `startCommand`; STATUS answers in every state. -/
theorem writeOfCmdStartsACommand : Obligations.WriteOfCmdStartsACommand :=
  ⟨fun _ v hp => hostRegWrite_regOffset hp .cmd v, fun _ v hp => hostRegWrite_of_pending hp 0x00 32 v,
    fun s => ⟨hostRegRead_status s, busyField_statusWord s⟩⟩

/-! ### The engine's step -/

theorem engineStep_of_decode {s : State} {i : Instr} (h : decode s.latch = .ok i) : engineStep s = exec i s := by
  simp [engineStep, h]

theorem engineStep_of_illegal {s : State} {e : Illegal} (h : decode s.latch = .error e) :
    engineStep s = .next (finish .badCmd s) := by simp [engineStep, h]

/-- Settles O7: such a word decodes to no command. -/
theorem illegalWordFinishesBadCmd : Obligations.IllegalWordFinishesBadCmd := by
  intro s h
  obtain ⟨e, he⟩ := (illegalWordsAreReservedOnes s.latch).2 h
  exact engineStep_of_illegal he

theorem engineMoves_iff (s : State) : engineMoves s = true ↔ s.pending = true ∧ s.turns.head? ≠ some .host := by
  simp [engineMoves]

/-- With a command pending and no host turn first, a step is the engine's after one turn is used up. -/
theorem step_eq_engineStep {s : State} (hp : s.pending = true) (ht : s.turns.head? ≠ some .host) :
    step s = engineStep { s with turns := s.turns.tail } := by
  rw [step, if_pos ((engineMoves_iff s).2 ⟨hp, ht⟩), takeTurn_of_pending hp]

/-- Settles O5: using up a turn leaves LATCH, so the engine decodes the same word. -/
theorem stepRunsTheDecodedCommand : Obligations.StepRunsTheDecodedCommand := by
  intro s i hp ht hd
  rw [step_eq_engineStep hp ht]
  exact engineStep_of_decode hd

/-- Settles O58: the step is the engine's, and O7 says what that does. -/
theorem stepOnAnIllegalWordFinishesBadCmd : Obligations.StepOnAnIllegalWordFinishesBadCmd := by
  intro s hp ht hw
  rw [step_eq_engineStep hp ht]
  exact illegalWordFinishesBadCmd { s with turns := s.turns.tail } hw

/-! ### A host that waits -/

/-- While a command is pending STATUS reads with BUSY = 1, so the poll goes on (30_encoding.md R75). -/
theorem hostExec_wait_of_pending {s : State} (hp : s.pending = true) : hostExec .wait s = .next s := by
  simp [hostExec, hostRegRead_status, busyField_statusWord, hp]

theorem hostStep_of_polling {s : State} (hp : s.pending = true)
    (hh : s.host.halted = true ∨ s.host.prog[s.host.pc]? = some .wait) : hostStep s = .next s := by
  unfold hostStep
  split
  · rfl
  · rename_i running
    rw [hh.resolve_left running]
    exact hostExec_wait_of_pending hp

/-- A host turn of a polling or halted host is used up, and nothing else changes. -/
theorem step_of_polling {s : State} {turns : List Agent} (hp : s.pending = true)
    (hh : s.host.halted = true ∨ s.host.prog[s.host.pc]? = some .wait) (ht : s.turns = .host :: turns) :
    step s = .next { s with turns := turns } := by
  have htake : takeTurn s = { s with turns := turns } := by rw [takeTurn_of_pending hp, ht, List.tail_cons]
  rw [step_eq_hostStep_takeTurn (.inr (by rw [ht, List.head?_cons])), htake]
  exact hostStep_of_polling hp hh

/-- Settles O9, by induction on the turn list: the engine moves at its end or at an engine turn, and each host turn before that is
used up by one step. -/
theorem pollingHostLetsTheEngineMove : Obligations.PollingHostLetsTheEngineMove := by
  intro s hp hh
  induction hturns : s.turns generalizing s with
  | nil => exact ⟨0, Nat.zero_le _, by rw [← hturns]; rfl, (engineMoves_iff _).2 ⟨hp, by simp⟩⟩
  | cons a turns ih =>
    cases a with
    | engine => exact ⟨0, Nat.zero_le _, by rw [← hturns]; rfl, (engineMoves_iff _).2 ⟨hp, by simp⟩⟩
    | host =>
      obtain ⟨k, hk, hrun, hmoves⟩ := ih { s with turns := turns } hp hh rfl
      exact ⟨k + 1, Nat.succ_le_succ hk, (run_succ_next k (step_of_polling hp hh hturns)).trans hrun, hmoves⟩

/-! ### NOP, and the check of BUF_LEN -/

/-- Settles O10: NOP's word is in the opcode map (30_encoding.md R63), and its rule is `finish(OK)` alone. -/
theorem nopSetsErrOkOnly : Obligations.NopSetsErrOkOnly :=
  ⟨opcodeMapWordsDecode.1, fun _ => rfl⟩

/-- Settles O14: the buffer-length check comes first in each of the four, alone or as the first of the window checks. -/
theorem longBufLenIsRefused : Obligations.LongBufLenIsRefused := by
  rintro s i h (rfl | rfl | rfl | rfl)
  · exact withWindow_fail (.inl h)
  · exact withWindow_fail (.inl h)
  · exact withBufLen_fail h
  · exact withBufLen_fail h

end Sys2Proof.Machine
end

section
/-! The CRC command (41_checksum.md R98). -/

namespace Sys2Proof.Machine

theorem exec_crc_of_not_fits {s : State} (h : ¬ WindowFits s) : exec .crc s = .next (finish .badWindow s) := by
  obtain ⟨-, he⟩ | ⟨hfit, -⟩ | ⟨hfit, -⟩ := execCrc_cases s
  · exact he
  · exact absurd hfit h
  · exact absurd hfit h

/-- MemRead answers the bytes its range holds, and only those. -/
theorem memRead_eq_some_iff_holds (m : Memory) (a : Nat) (B : List Byte) : memRead m a B.length = some B ↔ Holds m a B := by
  simp [memRead_eq_some_iff, Holds]

theorem exec_crc_of_holds {s : State} {B : List Byte} (hfit : WindowFits s) (hlen : B.length = s.arg1.toNat)
    (hB : Holds s.buf s.arg0.toNat B) :
    exec .crc s = .next (finish .ok { s with result := (crc24q B).setWidth 32, crcReg := crcRegister B }) := by
  have hread : memRead s.buf s.arg0.toNat s.arg1.toNat = some B := by
    rw [← hlen]
    exact (memRead_eq_some_iff_holds _ _ B).2 hB
  obtain ⟨hno, -⟩ | ⟨-, C, hC, he⟩ | ⟨-, hnone, -⟩ := execCrc_cases s
  · exact absurd hfit hno
  · cases hC.symm.trans hread
    exact he
  · cases hnone.symm.trans hread

theorem exec_crc_fault_iff (s : State) : exec .crc s = .fault .uninitRead ↔
    WindowFits s ∧ memRead s.buf s.arg0.toNat s.arg1.toNat = none := by
  obtain ⟨hno, he⟩ | ⟨-, B, hB, he⟩ | ⟨hfit, hnone, he⟩ := execCrc_cases s
  · simp [exec, he, hno]
  · simp [exec, he, hB]
  · exact iff_of_true he ⟨hfit, hnone⟩

/-- Settles O12: CRC's word is in the opcode map (30_encoding.md R63), and each clause is one of the three answers of
`execCrc_cases`. -/
theorem crcCommand : Obligations.CrcCommand := by
  refine ⟨opcodeMapWordsDecode.2.1, fun s h => ?_, fun s B hlen hwin hB hbytes => ?_, fun s => ?_⟩
  · exact exec_crc_of_not_fits (by unfold WindowFits; omega)
  · exact ⟨_, exec_crc_of_holds ⟨hlen, hwin⟩ hB hbytes⟩
  · rw [exec_crc_fault_iff, memRead_eq_none_iff_range, and_assoc]

end Sys2Proof.Machine
end

section
/-! The laws of the checksum that follow from its rounds: the register's bound, linearity, the residue of an appended checksum, and
the errors it detects (41_checksum.md R91 to R97). -/

namespace Sys2Proof.Machine

/-! ### The register is its low 24 bits (41_checksum.md R93) -/

/-- Taking the low 24 bits discards nothing. -/
theorem crcRegister_toNat (B : List Byte) : (crcRegister B).toNat = (crc24q B).toNat := by
  rw [crc24q, BitVec.extractLsb'_toNat, Nat.shiftRight_zero, Nat.mod_eq_of_lt (crcRegister_lt B)]

theorem crc24q_eq_iff (A B : List Byte) : crc24q A = crc24q B ↔ crcRegister A = crcRegister B := by
  rw [BitVec.toNat_eq, BitVec.toNat_eq, crcRegister_toNat, crcRegister_toNat]

theorem crcRegister_append (A B : List Byte) : crcRegister (A ++ B) = B.foldl crcByte (crcRegister A) := List.foldl_append

/-- Settles O36: the bound of a round, of a byte and of every register. -/
theorem crcRegisterHolds24Bits : Obligations.CrcRegisterHolds24Bits :=
  ⟨fun _ => crcRound_lt, fun _ b => crcByte_lt b, crcRegister_toNat⟩

/-- Settles O35: with no byte the register keeps CRC_INIT, which is 0. -/
theorem checksumOfNothingIsZero : Obligations.ChecksumOfNothingIsZero := by
  change BitVec.extractLsb' 0 24 Config.crcInit = 0#24
  decide

/-! ### Linearity (41_checksum.md R95) -/

theorem xor_xor_xor_comm {w : Nat} (a b c d : BitVec w) : a ^^^ b ^^^ (c ^^^ d) = a ^^^ c ^^^ (b ^^^ d) := by ac_rfl

/-- What a round XORs into the shifted register (41_checksum.md R91). -/
def crcFeedback (r : Word) : Word := if (r <<< 1).getLsbD 24 then Config.crcPoly else 0#32

theorem crcRound_eq_shift_xor_feedback (r : Word) : crcRound r = r <<< 1 ^^^ crcFeedback r := by
  unfold crcRound crcFeedback
  split
  · rfl
  · exact BitVec.xor_zero.symm

theorem crcFeedback_xor (r t : Word) : crcFeedback (r ^^^ t) = crcFeedback r ^^^ crcFeedback t := by
  unfold crcFeedback
  rw [BitVec.shiftLeft_xor_distrib, BitVec.getLsbD_xor]
  cases (r <<< 1).getLsbD 24 <;> cases (t <<< 1).getLsbD 24 <;> decide

theorem crcRound_xor (r t : Word) : crcRound (r ^^^ t) = crcRound r ^^^ crcRound t := by
  simp only [crcRound_eq_shift_xor_feedback, BitVec.shiftLeft_xor_distrib, crcFeedback_xor, xor_xor_xor_comm]

theorem crcRounds_xor (k : Nat) (r t : Word) : crcRounds k (r ^^^ t) = crcRounds k r ^^^ crcRounds k t := by
  induction k generalizing r t with
  | zero => rfl
  | succ k ih => rw [crcRounds, crcRounds, crcRounds, crcRound_xor, ih]

theorem crcByte_xor (r t : Word) (b c : Byte) : crcByte (r ^^^ t) (b ^^^ c) = crcByte r b ^^^ crcByte t c := by
  rw [crcByte, crcByte, crcByte, ← crcRounds_xor, BitVec.setWidth_xor, BitVec.shiftLeft_xor_distrib, xor_xor_xor_comm]

theorem foldl_crcByte_xor : ∀ {A B : List Byte} (r t : Word), A.length = B.length →
    (List.zipWith (· ^^^ ·) A B).foldl crcByte (r ^^^ t) = A.foldl crcByte r ^^^ B.foldl crcByte t
  | [], [], _, _, _ => rfl
  | a :: A, b :: B, r, t, h => by
    rw [List.zipWith_cons_cons, List.foldl_cons, List.foldl_cons, List.foldl_cons, crcByte_xor,
      foldl_crcByte_xor _ _ (Nat.succ.inj h)]

theorem crcByte_init_zero : crcByte Config.crcInit 0x00#8 = Config.crcInit := by decide

/-- Settles O37: every byte is linear in register and byte and CRC_INIT is 0, so a zero byte leaves it. -/
theorem checksumIsLinear : Obligations.ChecksumIsLinear := by
  refine ⟨fun A B h => ?_, fun B => ?_⟩
  · rw [crc24q, crc24q, crc24q, ← BitVec.extractLsb'_xor]
    exact congrArg _ (foldl_crcByte_xor Config.crcInit Config.crcInit h)
  · exact (crc24q_eq_iff _ _).2 (congrArg (B.foldl crcByte) crcByte_init_zero)

/-! ### The residue of an appended checksum (41_checksum.md R96) -/

theorem crcFeedback_of_lt {r : Word} (h : r.toNat < 2 ^ 23) : crcFeedback r = 0#32 := by
  have hbit : r.getLsbD 23 = false := Nat.testBit_lt_two_pow h
  have htop : (r <<< 1).getLsbD 24 = false := by simpa using hbit
  rw [crcFeedback, htop]
  rfl

/-- While no set bit gets to bit 24 nothing is fed back, and `k` rounds are a shift by `k`. -/
theorem crcRounds_of_lt (k : Nat) : ∀ {r : Word}, r.toNat * 2 ^ k < 2 ^ 24 → crcRounds k r = r <<< k := by
  induction k with
  | zero => intro r _; exact (BitVec.shiftLeft_zero r).symm
  | succ k ih =>
    intro r h
    rw [Nat.pow_succ', ← Nat.mul_assoc] at h
    have hlt : r.toNat * 2 < 2 ^ 24 := (Nat.le_mul_of_pos_right _ (Nat.two_pow_pos k)).trans_lt h
    have hround : crcRound r = r <<< 1 := by
      rw [crcRound_eq_shift_xor_feedback, crcFeedback_of_lt (by omega), BitVec.xor_zero]
    have hdouble : (r <<< 1).toNat = r.toNat * 2 := by
      rw [BitVec.toNat_shiftLeft, Nat.shiftLeft_eq]
      omega
    rw [crcRounds, hround, ih (by rwa [hdouble]), ← BitVec.shiftLeft_add, Nat.add_comm]

/-- A byte enters the register at bits 23:16 (41_checksum.md R91). -/
theorem toNat_setWidth_shiftLeft_16 (b : Byte) : (b.setWidth 32 <<< 16).toNat = b.toNat * 2 ^ 16 := by
  have := b.isLt
  rw [BitVec.toNat_shiftLeft, BitVec.toNat_setWidth_of_le (by decide), Nat.shiftLeft_eq]
  omega

/-- Feeding the register its own top byte cancels that byte, and the 8 rounds move the 16 bits `n` below it up. -/
theorem crcByte_topByte {r : Word} {b : Byte} {n : Nat} (hr : r.toNat = 2 ^ 16 * b.toNat + n) (hn : n < 2 ^ 16) :
    (crcByte r b).toNat = n * 2 ^ 8 := by
  have hcancel : (r ^^^ (b.setWidth 32 <<< 16)).toNat = n := by
    rw [BitVec.toNat_xor, toNat_setWidth_shiftLeft_16, hr, Nat.two_pow_add_eq_or_of_lt hn, Nat.mul_comm]
    refine Nat.eq_of_testBit_eq fun i => ?_
    rw [Nat.testBit_xor, Nat.testBit_or, Nat.testBit_mul_two_pow]
    by_cases hi : 16 ≤ i
    · have htop : n.testBit i = false := Nat.testBit_lt_two_pow (hn.trans_le (Nat.pow_le_pow_right (by decide) hi))
      simp [htop]
    · simp [hi]
  rw [crcByte, crcRounds_of_lt 8 (by omega), BitVec.toNat_shiftLeft, hcancel, Nat.shiftLeft_eq]
  omega

/-- Feeding the register its own three bytes, most significant first, leaves it 0. -/
theorem foldl_crcByte_ownBytes {r : Word} {b2 b1 b0 : Byte}
    (hr : r.toNat = 2 ^ 16 * b2.toNat + (2 ^ 8 * b1.toNat + b0.toNat)) : [b2, b1, b0].foldl crcByte r = 0#32 := by
  have hb1 := b1.isLt
  have hb0 := b0.isLt
  have h2 := crcByte_topByte hr (by omega)
  have h1 := crcByte_topByte (b := b1) (n := 2 ^ 8 * b0.toNat) (h2.trans (by ring)) (by omega)
  have h0 := crcByte_topByte (b := b0) (n := 0) (h1.trans (by ring)) (by omega)
  exact BitVec.eq_of_toNat_eq h0

/-- Settles O38: after `M` the register's three bytes are those of the checksum. -/
theorem appendedChecksumLeavesZeroResidue : Obligations.AppendedChecksumLeavesZeroResidue := by
  intro M
  have hbyte : ∀ k, ((crc24q M).extractLsb' k 8).toNat = (crc24q M).toNat / 2 ^ k % 2 ^ 8 := fun k => by
    rw [BitVec.extractLsb'_toNat, Nat.shiftRight_eq_div_pow]
  have hlt := (crc24q M).isLt
  refine ((crc24q_eq_iff _ []).2 ?_).trans checksumOfNothingIsZero
  rw [crcRegister_append]
  refine foldl_crcByte_ownBytes ?_
  rw [crcRegister_toNat, hbyte, hbyte, hbyte]
  omega

/-! ### Errors in one byte (41_checksum.md R97) -/

/-- A round forgets nothing: CRC_POLY has bit 0 set, where the shift leaves a 0, so the feedback can be told from the result. -/
theorem crcRound_eq_zero {r : Word} (hr : r.toNat < 2 ^ 24) (h : crcRound r = 0#32) : r = 0#32 := by
  rw [crcRound_eq_shift_xor_feedback, BitVec.xor_eq_zero_iff, crcFeedback] at h
  split at h
  · have hlow : (r <<< 1).getLsbD 0 = false := by simp
    rw [h] at hlow
    exact absurd hlow (by decide)
  · have hdouble := congrArg BitVec.toNat h
    rw [BitVec.toNat_shiftLeft, Nat.shiftLeft_eq, BitVec.toNat_zero] at hdouble
    exact BitVec.eq_of_toNat_eq (by rw [BitVec.toNat_zero]; omega)

theorem crcRounds_injective (k : Nat) {r t : Word} (hr : r.toNat < 2 ^ 24) (ht : t.toNat < 2 ^ 24)
    (h : crcRounds k r = crcRounds k t) : r = t := by
  induction k generalizing r t with
  | zero => exact h
  | succ k ih =>
    have hround : crcRound r = crcRound t := ih (crcRound_lt hr) (crcRound_lt ht) h
    have hdiff : crcRound (r ^^^ t) = 0#32 := by rw [crcRound_xor, hround, BitVec.xor_self]
    exact BitVec.xor_eq_zero_iff.1 (crcRound_eq_zero (Nat.xor_lt_two_pow hr ht) hdiff)

theorem xor_setWidth_shiftLeft_16_lt {r : Word} (b : Byte) (hr : r.toNat < 2 ^ 24) :
    (r ^^^ (b.setWidth 32 <<< 16)).toNat < 2 ^ 24 := by
  have := b.isLt
  exact Nat.xor_lt_two_pow hr (by rw [toNat_setWidth_shiftLeft_16]; omega)

theorem crcByte_injective {r t : Word} {b c : Byte} (hr : r.toNat < 2 ^ 24) (ht : t.toNat < 2 ^ 24)
    (h : crcByte r b = crcByte t c) : r ^^^ (b.setWidth 32 <<< 16) = t ^^^ (c.setWidth 32 <<< 16) :=
  crcRounds_injective 8 (xor_setWidth_shiftLeft_16_lt b hr) (xor_setWidth_shiftLeft_16_lt c ht) h

/-- Two different registers stay different over any bytes that follow. -/
theorem foldl_crcByte_injective (B : List Byte) : ∀ {r t : Word}, r.toNat < 2 ^ 24 → t.toNat < 2 ^ 24 →
    B.foldl crcByte r = B.foldl crcByte t → r = t := by
  induction B with
  | nil => exact fun _ _ h => h
  | cons b B ih =>
    intro r t hr ht h
    exact (BitVec.xor_left_inj _).1 (crcByte_injective hr ht (ih (crcByte_lt b hr) (crcByte_lt b ht) h))

/-- Two byte sequences that differ in one byte alone have different checksums. -/
theorem crc24q_ne_of_byte_ne (A C : List Byte) {b c : Byte} (hbc : b ≠ c) : crc24q (A ++ b :: C) ≠ crc24q (A ++ c :: C) := by
  have hA := crcRegister_lt A
  rw [ne_eq, crc24q_eq_iff, crcRegister_append, crcRegister_append]
  intro h
  have hbyte : crcByte (crcRegister A) b = crcByte (crcRegister A) c :=
    foldl_crcByte_injective C (crcByte_lt b hA) (crcByte_lt c hA) h
  have hshift := congrArg BitVec.toNat ((BitVec.xor_right_inj _).1 (crcByte_injective hA hA hbyte))
  rw [toNat_setWidth_shiftLeft_16, toNat_setWidth_shiftLeft_16] at hshift
  exact hbc (BitVec.eq_of_toNat_eq (by omega))

theorem flipBit_eq_take_cons_drop {B : List Byte} {i : Nat} (hi : i / 8 < B.length) :
    flipBit B i = B.take (i / 8) ++ (B[i / 8] ^^^ (0x80#8 >>> (i % 8))) :: B.drop (i / 8 + 1) :=
  List.modify_eq_take_cons_drop hi

/-- Settles O39: an inverted bit changes one byte. -/
theorem singleBitFlipIsDetected : Obligations.SingleBitFlipIsDetected := by
  intro B i hB hi
  have hj : i / 8 < B.length := by omega
  have hmask : ∀ k < 8, 0x80#8 >>> k ≠ 0#8 := by decide
  have hflip : B[i / 8] ≠ B[i / 8] ^^^ (0x80#8 >>> (i % 8)) := fun h =>
    hmask (i % 8) (Nat.mod_lt _ (by decide)) ((BitVec.xor_right_inj _).1 (h.symm.trans BitVec.xor_zero.symm))
  have hne := crc24q_ne_of_byte_ne (B.take (i / 8)) (B.drop (i / 8 + 1)) hflip
  rw [← flipBit_eq_take_cons_drop hj, List.getElem_cons_drop, List.take_append_drop, hB] at hne
  exact hne.symm

end Sys2Proof.Machine
end

section
/-! The closed form of the checksum: the register is the bytes' polynomial times `x^24`, modulo `P(x)` (41_checksum.md R94). -/

namespace Sys2Proof.Machine

open Polynomial

/-! ### Words as polynomials -/

/-- The polynomial over GF(2) with the bits of a word as coefficients, bit `i` that of `x^i`. -/
noncomputable def bitPoly {w : Nat} (v : BitVec w) : (ZMod 2)[X] :=
  ∑ i ∈ Finset.range w, monomial i (if v.getLsbD i then (1 : ZMod 2) else 0)

theorem coeff_bitPoly {w : Nat} (v : BitVec w) (i : Nat) : (bitPoly v).coeff i = if v.getLsbD i then 1 else 0 := by
  rw [bitPoly, finsetSum_coeff]
  simp only [coeff_monomial, Finset.sum_ite_eq', Finset.mem_range]
  split
  · rfl
  · rw [BitVec.getLsbD_of_ge v i (by omega)]
    rfl

theorem degree_bitPoly_lt {w : Nat} (v : BitVec w) : (bitPoly v).degree < w := by
  refine (degree_lt_iff_coeff_zero _ _).2 fun i hi => ?_
  rw [coeff_bitPoly, BitVec.getLsbD_of_ge v i hi]
  rfl

theorem bitPoly_zero (w : Nat) : bitPoly 0#w = 0 := by
  ext i
  simp [coeff_bitPoly]

/-- XOR is addition over GF(2). -/
theorem bitPoly_xor {w : Nat} (v u : BitVec w) : bitPoly (v ^^^ u) = bitPoly v + bitPoly u := by
  ext i
  rw [coeff_add, coeff_bitPoly, coeff_bitPoly, coeff_bitPoly, BitVec.getLsbD_xor]
  cases v.getLsbD i <;> cases u.getLsbD i <;> decide

/-- A shift that loses no bit is a product with a power of `x`, whatever the two widths. -/
theorem bitPoly_eq_X_pow_mul {w n k : Nat} {v : BitVec w} {u : BitVec n} (h : v.toNat = u.toNat * 2 ^ k) :
    bitPoly v = X ^ k * bitPoly u := by
  ext i
  rw [coeff_X_pow_mul', coeff_bitPoly, coeff_bitPoly, BitVec.getLsbD, BitVec.getLsbD, h, Nat.testBit_mul_two_pow]
  by_cases hi : k ≤ i <;> simp [hi]

theorem bitPoly_eq_of_toNat_eq {w n : Nat} {v : BitVec w} {u : BitVec n} (h : v.toNat = u.toNat) : bitPoly v = bitPoly u := by
  simpa using bitPoly_eq_X_pow_mul (k := 0) (h.trans (Nat.mul_one _).symm)

/-! ### The generator polynomial -/

/-- `P(x)`. -/
noncomputable def generator : (ZMod 2)[X] := bitPoly 0x1864CFB#25

theorem bitPoly_crcPoly : bitPoly Config.crcPoly = generator := bitPoly_eq_of_toNat_eq rfl

theorem degree_generator_le : generator.degree ≤ 24 := Order.le_of_lt_succ (degree_bitPoly_lt 0x1864CFB#25)

theorem coeff_generator_24 : generator.coeff 24 = 1 := by
  rw [generator, coeff_bitPoly]
  decide

theorem generator_monic : generator.Monic := monic_of_degree_le 24 degree_generator_le coeff_generator_24

theorem degree_generator : generator.degree = 24 :=
  degree_eq_of_le_of_coeff_ne_zero degree_generator_le (by rw [coeff_generator_24]; exact one_ne_zero)

/-! ### Rounds and bytes modulo `P(x)` -/

/-- Reduction modulo `P(x)`. -/
noncomputable def modP : (ZMod 2)[X] →+* AdjoinRoot generator := AdjoinRoot.mk generator

theorem modP_bitPoly_crcFeedback (r : Word) : modP (bitPoly (crcFeedback r)) = 0 := by
  unfold crcFeedback
  split
  · rw [bitPoly_crcPoly]
    exact AdjoinRoot.mk_self
  · rw [bitPoly_zero, map_zero]

theorem modP_bitPoly_crcRound {r : Word} (hr : r.toNat < 2 ^ 24) : modP (bitPoly (crcRound r)) = modP (X * bitPoly r) := by
  have hshift : (r <<< 1).toNat = r.toNat * 2 ^ 1 := by
    rw [BitVec.toNat_shiftLeft, Nat.shiftLeft_eq]
    omega
  rw [crcRound_eq_shift_xor_feedback, bitPoly_xor, map_add, modP_bitPoly_crcFeedback, add_zero, bitPoly_eq_X_pow_mul hshift,
    pow_one]

theorem modP_bitPoly_crcRounds (k : Nat) : ∀ {r : Word}, r.toNat < 2 ^ 24 →
    modP (bitPoly (crcRounds k r)) = modP (X ^ k * bitPoly r) := by
  induction k with
  | zero => intro r _; rw [crcRounds, pow_zero, one_mul]
  | succ k ih =>
    intro r hr
    rw [crcRounds, ih (crcRound_lt hr), map_mul, modP_bitPoly_crcRound hr, ← map_mul, ← mul_assoc, ← pow_succ]

theorem modP_bitPoly_crcByte {r : Word} (b : Byte) (hr : r.toNat < 2 ^ 24) :
    modP (bitPoly (crcByte r b)) = modP (X ^ 8 * bitPoly r + X ^ 24 * bitPoly b) := by
  rw [crcByte, modP_bitPoly_crcRounds 8 (xor_setWidth_shiftLeft_16_lt b hr), bitPoly_xor,
    bitPoly_eq_X_pow_mul (toNat_setWidth_shiftLeft_16 b), mul_add, ← mul_assoc, ← pow_add]

/-! ### Byte sequences as polynomials -/

/-- `M(x)`: stream bit `i` of `n` bytes is the coefficient of `x^(8n-1-i)`. -/
noncomputable def streamPoly (B : List Byte) : (ZMod 2)[X] :=
  ∑ i ∈ Finset.range (8 * B.length), monomial (8 * B.length - 1 - i) ((sbit B i : Nat) : ZMod 2)

theorem sbit_append_left {A : List Byte} {i : Nat} (C : List Byte) (h : i < 8 * A.length) : sbit (A ++ C) i = sbit A i := by
  rw [sbit, List.getD_append _ _ _ _ (by omega), sbit]

theorem sbit_append_byte (B : List Byte) (b : Byte) {i : Nat} (hi : i < 8) :
    ((sbit (B ++ [b]) (8 * B.length + (8 - 1 - i)) : Nat) : ZMod 2) = if b.getLsbD i then 1 else 0 := by
  have hpos : 7 - (8 - 1 - i) = i := by omega
  rw [sbit_of_byte List.getElem?_concat_length (by omega), hpos, BitVec.getLsbD, Nat.testBit_eq_decide_div_mod_eq]
  obtain h | h := Nat.mod_two_eq_zero_or_one (b.toNat / 2 ^ i) <;> rw [h] <;> decide

theorem streamPoly_append_byte (B : List Byte) (b : Byte) : streamPoly (B ++ [b]) = X ^ 8 * streamPoly B + bitPoly b := by
  have hlen : 8 * (B ++ [b]).length = 8 * B.length + 8 := by rw [List.length_append]; rfl
  rw [streamPoly, hlen, Finset.sum_range_add, streamPoly, Finset.mul_sum, bitPoly, ← Finset.sum_range_reflect _ 8]
  congr 1 <;> refine Finset.sum_congr rfl fun i hi => ?_ <;> rw [Finset.mem_range] at hi
  · rw [sbit_append_left _ hi, X_pow_mul_monomial]
    congr 2
    omega
  · rw [sbit_append_byte B b hi]
    congr 2
    omega

/-! ### The closed form -/

theorem modP_bitPoly_crcRegister (B : List Byte) : modP (bitPoly (crcRegister B)) = modP (streamPoly B * X ^ 24) := by
  induction B using List.reverseRecOn with
  | nil => simp [crcRegister, Config.crcInit, streamPoly, bitPoly_zero]
  | append_singleton B b ih =>
    rw [crcRegister_append, List.foldl_cons, List.foldl_nil, modP_bitPoly_crcByte b (crcRegister_lt B), map_add, map_mul, ih,
      ← map_mul, ← map_add, streamPoly_append_byte]
    congr 1
    ring

/-- Settles O41: the checksum is congruent to `M(x) * x^24` modulo `P(x)`, and its degree is below 24. -/
theorem checksumIsThePolynomialRemainder : Obligations.ChecksumIsThePolynomialRemainder := by
  intro B
  change bitPoly (crc24q B) = (streamPoly B * X ^ 24) %ₘ generator
  have hcongr : modP (bitPoly (crc24q B)) = modP (streamPoly B * X ^ 24) := by
    rw [← modP_bitPoly_crcRegister, bitPoly_eq_of_toNat_eq (crcRegister_toNat B)]
  calc bitPoly (crc24q B)
    _ = bitPoly (crc24q B) %ₘ generator :=
      ((modByMonic_eq_self_iff generator_monic).2 ((degree_bitPoly_lt _).trans_eq degree_generator.symm)).symm
    _ = (streamPoly B * X ^ 24) %ₘ generator :=
      modByMonic_eq_of_dvd_sub generator_monic (AdjoinRoot.mk_eq_mk.1 hcongr)

end Sys2Proof.Machine
end

section
/-! The bit reader over a byte sequence: its sum form and bound, its split, and the barrel shifter (42_bitfield.md R99, R100, R104). -/

namespace Sys2Proof.Machine

/-! ### A field as a number -/

theorem sbit_lt_two (B : List Byte) (i : Nat) : sbit B i < 2 := by
  rw [sbit, Nat.and_one_is_mod]
  exact Nat.mod_lt _ Nat.two_pos

/-- One turn of the bit loop, as arithmetic. -/
theorem readbits_succ (B : List Byte) (s n : Nat) : readbits B s (n + 1) = readbits B s n * 2 + sbit B (s + n) := by
  rw [readbits, ← Nat.shiftLeft_add_eq_or_of_lt (sbit_lt_two B (s + n)), Nat.shiftLeft_eq, Nat.pow_one]

theorem readbits_lt (B : List Byte) (s n : Nat) : readbits B s n < 2 ^ n := by
  induction n with
  | zero => exact Nat.one_pos
  | succ n ih =>
    have := sbit_lt_two B (s + n)
    rw [readbits_succ, Nat.pow_succ]
    omega

/-- `readbits_add` as arithmetic: the two fields do not overlap. -/
theorem readbits_add_eq (B : List Byte) (s a b : Nat) :
    readbits B s (a + b) = readbits B s a * 2 ^ b + readbits B (s + a) b := by
  rw [readbits_add, ← Nat.shiftLeft_add_eq_or_of_lt (readbits_lt B (s + a) b), Nat.shiftLeft_eq]

theorem readbits_eq_sum (B : List Byte) (s n : Nat) :
    readbits B s n = ∑ k ∈ Finset.range n, sbit B (s + k) * 2 ^ (n - 1 - k) := by
  induction n with
  | zero => rfl
  | succ n ih =>
    have weight : ∀ k ∈ Finset.range n, sbit B (s + k) * 2 ^ (n - k) = sbit B (s + k) * 2 ^ (n - 1 - k) * 2 := by
      intro k hk
      have hpos : n - k = n - 1 - k + 1 := by rw [Finset.mem_range] at hk; omega
      rw [hpos, Nat.pow_succ, Nat.mul_assoc]
    rw [readbits_succ, ih, Finset.sum_mul, Finset.sum_range_succ, Nat.add_sub_cancel, Finset.sum_congr rfl weight, Nat.sub_self,
      Nat.pow_zero, Nat.mul_one]

/-- Settles O42: each turn of the loop doubles the bits read so far and adds the next one. -/
theorem fieldIsTheSumOfItsBits : Obligations.FieldIsTheSumOfItsBits :=
  fun B s n _ => ⟨readbits_eq_sum B s n, readbits_lt B s n⟩

/-- An aligned field of 8 bits is a byte. -/
theorem readbits_aligned_byte {B : List Byte} {j : Nat} {v : Byte} (hv : B[j]? = some v) : readbits B (8 * j) 8 = v.toNat := by
  simpa [Nat.mod_eq_of_lt v.isLt] using readbits_of_byte (s := 0) (n := 8) hv 0 rfl

/-- Settles O44: the loop over `a + b` bits runs on from the loop over `a`, and a byte is the field of its 8 bits. -/
theorem fieldsSplitAndAlignedFieldsAreBytes : Obligations.FieldsSplitAndAlignedFieldsAreBytes :=
  ⟨fun B s a b _ => readbits_add B s a b, fun _ _ _ hv => readbits_aligned_byte hv⟩

/-! ### The bytes that hold a field -/

theorem readbits_congr {A B : List Byte} {s t n : Nat} (h : ∀ k < n, sbit A (s + k) = sbit B (t + k)) :
    readbits A s n = readbits B t n := by
  rw [readbits_eq_sum, readbits_eq_sum]
  exact Finset.sum_congr rfl fun k hk => by rw [h k (Finset.mem_range.1 hk)]

/-- Stream bit `i` of the bytes from `f` on is stream bit `8 * f + i` of the whole. -/
theorem sbit_take_drop (B : List Byte) (f : Nat) {c i : Nat} (hi : i < 8 * c) :
    sbit ((B.drop f).take c) i = sbit B (8 * f + i) := by
  have hdiv : (8 * f + i) / 8 = f + i / 8 := by omega
  have hmod : (8 * f + i) % 8 = i % 8 := by omega
  rw [sbit, sbit, hdiv, hmod, List.getD_eq_getElem?_getD, List.getElem?_take_of_lt (by omega), List.getElem?_drop,
    ← List.getD_eq_getElem?_getD]

/-- The bytes `B[f .. g]` that hold the field of `n >= 1` bits from `s` (42_bitfield.md R104, R105). -/
def fieldBytes (B : List Byte) (s n : Nat) : List Byte :=
  (B.drop (firstByte s)).take (lastByte s n - firstByte s + 1)

theorem length_fieldBytes {B : List Byte} {s n : Nat} (hn : 1 ≤ n) (hB : s + n ≤ 8 * B.length) :
    (fieldBytes B s n).length = lastByte s n - firstByte s + 1 := by
  rw [fieldBytes, List.length_take, List.length_drop, firstByte, lastByte]
  omega

/-- The field read within the bytes that hold it (42_bitfield.md R105). -/
theorem readbits_fieldBytes (B : List Byte) (s n : Nat) :
    readbits (fieldBytes B s n) (s - 8 * firstByte s) n = readbits B s n := by
  refine readbits_congr fun k hk => ?_
  rw [fieldBytes, sbit_take_drop _ _ (by rw [firstByte, lastByte]; omega), firstByte]
  congr 1
  omega

/-! ### The barrel shifter -/

theorem bigEndian_append_byte (B : List Byte) (b : Byte) : bigEndian (B ++ [b]) = (bigEndian B <<< 8) ||| b.toNat := by
  rw [bigEndian, List.foldl_append, List.foldl_cons, List.foldl_nil, bigEndian]

/-- Bytes read as one big-endian number are the field of all their bits. -/
theorem bigEndian_eq_readbits (B : List Byte) : bigEndian B = readbits B 0 (8 * B.length) := by
  induction B using List.reverseRecOn with
  | nil => rfl
  | append_singleton B b ih =>
    have hlen : 8 * (B ++ [b]).length = 8 * B.length + 8 := by rw [List.length_append]; rfl
    have front : readbits (B ++ [b]) 0 (8 * B.length) = readbits B 0 (8 * B.length) :=
      readbits_congr fun k hk => sbit_append_left [b] (by omega)
    have back : readbits (B ++ [b]) (8 * B.length) 8 = b.toNat := readbits_aligned_byte List.getElem?_concat_length
    rw [hlen, readbits_add, Nat.zero_add, front, back, bigEndian_append_byte, ih]

/-- Shifting `t` bits out on the right and masking `n` leaves the field after the first `d` bits. -/
theorem readbits_shiftRight_mask (B : List Byte) (s d n t : Nat) :
    (readbits B s (d + n + t) >>> t) &&& ((1 <<< n) - 1) = readbits B (s + d) n := by
  have shifted : readbits B s (d + n + t) >>> t = readbits B s (d + n) := by
    rw [readbits_add_eq, Nat.shiftRight_eq_div_pow, Nat.add_comm, Nat.add_mul_div_right _ _ (Nat.two_pow_pos t),
      Nat.div_eq_of_lt (readbits_lt B (s + (d + n)) t), Nat.zero_add]
  rw [shifted, Nat.one_shiftLeft, Nat.and_two_pow_sub_one_eq_mod, readbits_add_eq, Nat.mul_add_mod_of_lt (readbits_lt B (s + d) n)]

/-- Settles O43: the big-endian word is the field of all its bits, so the shift and the mask cut the field out of it. -/
theorem barrelShifterGivesTheField : Obligations.BarrelShifterGivesTheField := by
  intro B s n hn hB
  have hbits : 8 * (fieldBytes B s n).length = s - 8 * firstByte s + n + (8 * (lastByte s n + 1) - (s + n)) := by
    rw [length_fieldBytes hn hB, firstByte, lastByte]
    omega
  calc barrelShift B s n
    _ = (bigEndian (fieldBytes B s n) >>> (8 * (lastByte s n + 1) - (s + n))) &&& ((1 <<< n) - 1) := rfl
    _ = readbits (fieldBytes B s n) (s - 8 * firstByte s) n := by
      rw [bigEndian_eq_readbits, hbits, readbits_shiftRight_mask, Nat.zero_add]
    _ = readbits B s n := readbits_fieldBytes B s n

end Sys2Proof.Machine
end

section
/-! The RDBITS command (42_bitfield.md R105). -/

namespace Sys2Proof.Machine

/-! ### Reading the field's bytes -/

/-- MemRead of the field's bytes asks only those of the window that hold the field. -/
theorem memRead_fieldBytes {m : Memory} {a s n : Nat} {W : List Byte} (hn : 1 ≤ n) (hW : s + n ≤ 8 * W.length)
    (h : ∀ k, k < W.length → firstByte s ≤ k → k ≤ lastByte s n → m.byteAt (a + k) = W[k]?) :
    memRead m (a + firstByte s) (lastByte s n - firstByte s + 1) = some (fieldBytes W s n) := by
  refine (memRead_eq_some_iff _ _ _ _).2 ⟨length_fieldBytes hn hW, fun k hk => ?_⟩
  have hlast : lastByte s n < W.length := by rw [lastByte]; omega
  have horder : firstByte s ≤ lastByte s n := Nat.div_le_div_right (by omega)
  rw [fieldBytes, List.getElem?_take_of_lt hk, List.getElem?_drop, Nat.add_assoc]
  exact h _ (by omega) (by omega) (by omega)

theorem readField_of_bytes {s : State} {base start width : Nat} {W : List Byte} (hn : 1 ≤ width)
    (hW : start + width ≤ 8 * W.length)
    (h : ∀ k, k < W.length → firstByte start ≤ k → k ≤ lastByte start width → s.buf.byteAt (base + k) = W[k]?) :
    readField base start width s = .next (finishField (readbits W start width) s) := by
  rw [readField, withBytes, memRead_fieldBytes hn hW h, ← readbits_fieldBytes W]

theorem readField_fault_iff_memRead (base start width : Nat) (s : State) :
    readField base start width s = .fault .uninitRead ↔
      memRead s.buf (base + firstByte start) (lastByte start width - firstByte start + 1) = none := by
  obtain ⟨W, hread, he⟩ | ⟨hread, he⟩ := readField_cases base start width s
  · simp [hread, he]
  · exact iff_of_true he hread

/-- The read of a field stops exactly when a byte that holds it is unwritten (20_memory.md R49). -/
theorem readField_fault_iff (base start : Nat) {width : Nat} (hn : 1 ≤ width) (s : State) :
    readField base start width s = .fault .uninitRead ↔
      ∃ a, base + firstByte start ≤ a ∧ a ≤ base + lastByte start width ∧ s.buf.byteAt a = none := by
  have horder : firstByte start ≤ lastByte start width := Nat.div_le_div_right (by omega)
  rw [readField_fault_iff_memRead, memRead_eq_none_iff_range]
  exact exists_congr fun a => and_congr_right fun _ => and_congr_left fun _ => by omega

/-! ### The command -/

/-- Every check of RDBITS passes. -/
abbrev FieldFits (s : State) : Prop :=
  WindowFits s ∧ s.arg3.toNat ≤ 32 ∧ s.arg2.toNat + s.arg3.toNat ≤ 8 * s.arg1.toNat

theorem exec_rdbits_of_not_windowFits {s : State} (h : ¬ WindowFits s) : exec .rdbits s = .next (finish .badWindow s) := by
  obtain ⟨-, he⟩ | ⟨hfit, -⟩ | ⟨hfit, -⟩ | ⟨hfit, -⟩ := execRdbits_cases s
  · exact he
  all_goals exact absurd hfit h

theorem exec_rdbits_of_wide {s : State} (hfit : WindowFits s) (h : 32 < s.arg3.toNat) :
    exec .rdbits s = .next (finish .badWidth s) := by
  obtain ⟨hno, -⟩ | ⟨-, -, he⟩ | ⟨-, hle, -⟩ | ⟨-, hle, -⟩ := execRdbits_cases s
  · exact absurd hfit hno
  · exact he
  all_goals exact absurd h (Nat.not_lt.2 hle)

theorem exec_rdbits_of_outOfRange {s : State} (hfit : WindowFits s) (hle : s.arg3.toNat ≤ 32)
    (h : 8 * s.arg1.toNat < s.arg2.toNat + s.arg3.toNat) : exec .rdbits s = .next (finish .outOfRange s) := by
  obtain ⟨hno, -⟩ | ⟨-, hlt, -⟩ | ⟨-, -, -, he⟩ | ⟨-, -, hin, -⟩ := execRdbits_cases s
  · exact absurd hfit hno
  · exact absurd hlt (Nat.not_lt.2 hle)
  · exact he
  · exact absurd h (Nat.not_lt.2 hin)

/-- Past the checks RDBITS either reads no byte, for width 0 (42_bitfield.md R103), or reads the field. -/
theorem exec_rdbits_of_fieldFits {s : State} (h : FieldFits s) :
    (s.arg3.toNat = 0 ∧ exec .rdbits s = .next (finishField 0 s)) ∨
    (0 < s.arg3.toNat ∧ exec .rdbits s = readField s.arg0.toNat s.arg2.toNat s.arg3.toNat s) := by
  obtain ⟨hfit, hle, hin⟩ := h
  obtain ⟨hno, -⟩ | ⟨-, hlt, -⟩ | ⟨-, -, hout, -⟩ | ⟨-, -, -, he⟩ := execRdbits_cases s
  · exact absurd hfit hno
  · exact absurd hlt (Nat.not_lt.2 hle)
  · exact absurd hout (Nat.not_lt.2 hin)
  · exact he

/-- RDBITS answers the field of a window of which only the bytes that hold the field need be written. -/
theorem exec_rdbits_of_bytes {s : State} {W : List Byte} (h : FieldFits s) (hlen : W.length = s.arg1.toNat)
    (hW : ∀ k, k < W.length → 0 < s.arg3.toNat → firstByte s.arg2.toNat ≤ k → k ≤ lastByte s.arg2.toNat s.arg3.toNat →
      s.buf.byteAt (s.arg0.toNat + k) = W[k]?) :
    exec .rdbits s = .next (finishField (readbits W s.arg2.toNat s.arg3.toNat) s) := by
  have ⟨_, _, hin⟩ := h
  obtain ⟨hzero, he⟩ | ⟨hpos, he⟩ := exec_rdbits_of_fieldFits h
  · rw [he, hzero, readbits]
  · rw [he, readField_of_bytes hpos (hlen ▸ hin) fun k hk => hW k hk hpos]

/-- A fault of RDBITS is one of its read, past every check. -/
theorem exec_rdbits_fault_iff_readField (s : State) : exec .rdbits s = .fault .uninitRead ↔
    FieldFits s ∧ 0 < s.arg3.toNat ∧ readField s.arg0.toNat s.arg2.toNat s.arg3.toNat s = .fault .uninitRead := by
  constructor
  · intro hf
    obtain ⟨-, he⟩ | ⟨-, -, he⟩ | ⟨-, -, -, he⟩ | ⟨hfit, hle, hin, ⟨-, he⟩ | ⟨hpos, he⟩⟩ := execRdbits_cases s
    case inr.inr.inr.inr => exact ⟨⟨hfit, hle, hin⟩, hpos, he.symm.trans hf⟩
    all_goals cases he.symm.trans hf
  · rintro ⟨hfits, hpos, hr⟩
    obtain ⟨hzero, -⟩ | ⟨-, he⟩ := exec_rdbits_of_fieldFits hfits
    · exact absurd hzero hpos.ne'
    · exact he.trans hr

theorem exec_rdbits_fault_iff (s : State) : exec .rdbits s = .fault .uninitRead ↔
    FieldFits s ∧ 0 < s.arg3.toNat ∧ ∃ a, s.arg0.toNat + firstByte s.arg2.toNat ≤ a ∧
      a ≤ s.arg0.toNat + lastByte s.arg2.toNat s.arg3.toNat ∧ s.buf.byteAt a = none := by
  rw [exec_rdbits_fault_iff_readField]
  exact and_congr_right fun _ => and_congr_right fun hpos => readField_fault_iff _ _ hpos s

/-- Settles O13: RDBITS's word is in the opcode map (30_encoding.md R63), and each clause is the answer at one place in the order of
the checks. -/
theorem rdbitsCommand : Obligations.RdbitsCommand := by
  refine ⟨opcodeMapWordsDecode.2.2.1, fun s h => ?_, fun s hlen hwin => exec_rdbits_of_wide ⟨hlen, hwin⟩,
    fun s hlen hwin => exec_rdbits_of_outOfRange ⟨hlen, hwin⟩, fun s W hlen hwin hle hin hW hbytes => ?_, fun s => ?_⟩
  · exact exec_rdbits_of_not_windowFits (by unfold WindowFits; omega)
  · exact ⟨_, exec_rdbits_of_bytes ⟨⟨hlen, hwin⟩, hle, hin⟩ hW hbytes⟩
  · simp only [exec_rdbits_fault_iff, FieldFits, WindowFits, firstByte, lastByte, and_assoc]

end Sys2Proof.Machine
end

section
/-! SCANRST, and SCANSTEP outcome by outcome: what one attempt answers, and what the command then writes (43_scanner.md R107 to
R115). -/

namespace Sys2Proof.Machine

/-- Settles O11: SCANRST's word decodes to it (30_encoding.md R64), and its rule clears these registers, then finishes. -/
theorem scanrstClearsTheScanner : Obligations.ScanrstClearsTheScanner :=
  ⟨decodeReadsBackEncode .scanrst rfl, fun _ => rfl⟩

/-! ### What one attempt answers, by the bytes it finds -/

theorem scanAttempt_of_end {m : Memory} {n o : Nat} (h : n ≤ o) :
    scanAttempt m n o = .ok { out := .atEnd, next := o, frame := none, crc := none } := by
  simp [scanAttempt, h]

theorem scanAttempt_of_wrongPreamble {m : Memory} {n o : Nat} {b : Byte} (ho : o < n) (hb : m.byteAt o = some b)
    (hne : b ≠ Config.preamble) :
    scanAttempt m n o = .ok { out := .skipPreamble, next := o + 1, frame := none, crc := none } := by
  simp [scanAttempt, Nat.not_le.2 ho, hb, hne]

theorem scanAttempt_of_missingHeader {m : Memory} {n o : Nat} (ho : o < n) (hb : m.byteAt o = some Config.preamble)
    (hn : n < o + 3) : scanAttempt m n o = .ok { out := .skipShort, next := o + 1, frame := none, crc := none } := by
  simp [scanAttempt, Nat.not_le.2 ho, hb, Config.headerBytes, hn]

/-- The three bytes of a candidate's header lie inside `BUF[0 .. n)` at `o` (30_encoding.md R69). -/
structure HeaderAt (m : Memory) (n o : Nat) (b1 b2 : Byte) : Prop where
  fits : o + 3 ≤ n
  preamble : m.byteAt o = some Config.preamble
  high : m.byteAt (o + 1) = some b1
  low : m.byteAt (o + 2) = some b2

theorem scanAttempt_of_incomplete {m : Memory} {n o : Nat} {b1 b2 : Byte} (h : HeaderAt m n o b1 b2)
    (hn : n < o + (payloadLen b1 b2 + 6)) :
    scanAttempt m n o = .ok { out := .skipShort, next := o + 1, frame := none, crc := none } := by
  obtain ⟨hfits, h0, h1, h2⟩ := h
  have ho : ¬ n ≤ o := by omega
  simp [scanAttempt, ho, h0, Config.headerBytes, Nat.not_lt.2 hfits, h1, h2, Config.frameBytes, hn]

theorem scanAttempt_of_candidate {m : Memory} {n o : Nat} {b1 b2 : Byte} {B : List Byte} (h : HeaderAt m n o b1 b2)
    (hlen : B.length = payloadLen b1 b2 + 6) (hB : Holds m o B) (hn : o + B.length ≤ n) :
    scanAttempt m n o = .ok (judge o (payloadLen b1 b2) B) := by
  obtain ⟨hfits, h0, h1, h2⟩ := h
  have ho : ¬ n ≤ o := by omega
  have hread := (memRead_eq_some_iff_holds m o B).2 hB
  rw [hlen] at hread hn
  simp [scanAttempt, ho, h0, Config.headerBytes, Nat.not_lt.2 hfits, h1, h2, Config.frameBytes, Nat.not_lt.2 hn, hread]

/-! ### What SCANSTEP writes -/

theorem exec_scanstep_of_attempt {s : State} {a : Attempt} (hlen : s.bufLen.toNat ≤ Config.bufCap)
    (h : scanAttempt s.buf s.bufLen.toNat s.cursor.toNat = .ok a) : exec .scanstep s = .next (finish .ok (applyAttempt a s)) := by
  rw [exec, execScanstep, withBufLen_pass hlen, h]
  rfl

theorem ofNat_toNat_add (v : Word) (k : Nat) : BitVec.ofNat 32 (v.toNat + k) = v + BitVec.ofNat 32 k := by
  rw [BitVec.ofNat_add, BitVec.ofNat_toNat, BitVec.setWidth_eq]

theorem exec_scanstep_of_skip {s : State} {out : ScanOut} {crc : Option Word} (hlen : s.bufLen.toNat ≤ Config.bufCap)
    (h : scanAttempt s.buf s.bufLen.toNat s.cursor.toNat =
      .ok { out := out, next := s.cursor.toNat + 1, frame := none, crc := crc }) :
    exec .scanstep s = .next { s with
      cursor := s.cursor + 1#32, scanOut := out, crcReg := crc.getD s.crcReg, err := .ok, pending := false } := by
  rw [exec_scanstep_of_attempt hlen h, applyAttempt_skip s rfl, ofNat_toNat_add]
  rfl

/-- Settles O15: END leaves the cursor alone. -/
theorem scanstepAtTheEnd : Obligations.ScanstepAtTheEnd := by
  intro s hlen hend
  rw [exec_scanstep_of_attempt hlen (scanAttempt_of_end hend), applyAttempt_skip s rfl, BitVec.ofNat_toNat, BitVec.setWidth_eq]
  rfl

/-- Settles O16: the attempt reads one byte and no checksum is computed. -/
theorem scanstepSkipsAWrongPreamble : Obligations.ScanstepSkipsAWrongPreamble := fun _ _ hlen ho hb hne =>
  exec_scanstep_of_skip hlen (scanAttempt_of_wrongPreamble ho hb hne)

/-- Settles O17: the attempt reads the preamble and nothing past it. -/
theorem scanstepSkipsAMissingHeader : Obligations.ScanstepSkipsAMissingHeader := fun _ hlen ho hn hb =>
  exec_scanstep_of_skip hlen (scanAttempt_of_missingHeader ho hb hn)

/-- Settles O18: the attempt reads the header, whose masked length asks for more than is left. -/
theorem scanstepSkipsAnIncompleteFrame : Obligations.ScanstepSkipsAnIncompleteFrame := by
  intro s b1 b2 hlen hfits h0 h1 h2 hn
  rw [← payloadLen_eq] at hn
  exact exec_scanstep_of_skip hlen (scanAttempt_of_incomplete ⟨hfits, h0, h1, h2⟩ hn)

/-- A byte of a sequence the buffer holds is at its place. -/
theorem Holds.byteAt {m : Memory} {a k : Nat} {B : List Byte} {b : Byte} (h : Holds m a B) (hb : B[k]? = some b) :
    m.byteAt (a + k) = some b := by
  obtain ⟨hk, -⟩ := List.getElem?_eq_some_iff.1 hb
  rw [h k hk, hb]

/-- Settles O19: the candidate is complete, and the verdict on its checksum is SKIP_CRC. -/
theorem scanstepSkipsABadChecksum : Obligations.ScanstepSkipsABadChecksum := by
  intro s b1 b2 B hlen hB hn hHolds h0 h1 h2 hcrc
  rw [← payloadLen_eq] at hB
  have hheader : HeaderAt s.buf s.bufLen.toNat s.cursor.toNat b1 b2 :=
    ⟨by omega, hHolds.byteAt h0, hHolds.byteAt h1, hHolds.byteAt h2⟩
  have hattempt := scanAttempt_of_candidate hheader hB hHolds hn
  obtain ⟨-, hj⟩ | ⟨hzero, -⟩ := judge_cases s.cursor.toNat (payloadLen b1 b2) B
  · rw [hj] at hattempt
    exact ⟨_, exec_scanstep_of_skip hlen hattempt⟩
  · exact absurd hzero hcrc

/-! ### Valid frames (43_scanner.md R113, R118) -/

/-- A valid frame is a complete candidate whose checksum is 0. -/
theorem scanAttempt_of_validFrameAt {m : Memory} {n o L : Nat} (h : ValidFrameAt m n o L) :
    ∃ r, scanAttempt m n o = .ok { out := .frame, next := o + (L + 6), frame := some (o, L), crc := some r } := by
  obtain ⟨hfits, h0, ⟨b1, b2, h1, h2, rfl⟩, B, hB, hHolds, hcrc⟩ := h
  refine ⟨crcRegister B, ?_⟩
  rw [scanAttempt_of_candidate ⟨by omega, h0, h1, h2⟩ hB hHolds (by omega)]
  obtain ⟨hne, -⟩ | ⟨-, hj⟩ := judge_cases o (payloadLen b1 b2) B
  · exact absurd hcrc hne
  · rw [hj]

theorem exec_scanstep_of_validFrameAt {s : State} {L : Nat} (hlen : s.bufLen.toNat ≤ Config.bufCap)
    (h : ValidFrameAt s.buf s.bufLen.toNat s.cursor.toNat L) :
    ∃ r, exec .scanstep s = .next { s with
      frameOff := s.cursor, frameLen := BitVec.ofNat 32 L, frameCount := s.frameCount + 1#32,
      cursor := s.cursor + BitVec.ofNat 32 (L + 6), scanOut := .frame, crcReg := r, err := .ok, pending := false } := by
  obtain ⟨r, ha⟩ := scanAttempt_of_validFrameAt h
  refine ⟨r, ?_⟩
  rw [exec_scanstep_of_attempt hlen ha, applyAttempt_frame s rfl, ofNat_toNat_add, BitVec.ofNat_toNat, BitVec.setWidth_eq]
  rfl

/-- The payload the registers describe is the bytes from `FRAME_OFF + 3` on. -/
theorem framePayload_of_holds {t : State} {P : List Byte} (hL : t.frameLen.toNat = P.length)
    (hP : Holds t.buf (t.frameOff.toNat + 3) P) : framePayload t = some P := by
  rw [framePayload, hL]
  exact (memRead_eq_some_iff_holds _ _ P).2 hP

/-- Bytes `j` to `j + l - 1` of a sequence the buffer holds stand at its offset plus `j`. -/
theorem Holds.slice {m : Memory} {a : Nat} {B : List Byte} (h : Holds m a B) (j l : Nat) :
    Holds m (a + j) ((B.drop j).take l) := by
  intro k hk
  rw [List.length_take, List.length_drop] at hk
  rw [List.getElem?_take_of_lt (by omega), List.getElem?_drop, Nat.add_assoc]
  exact h (j + k) (by omega)

theorem ValidFrameAt.payload {m : Memory} {n o L : Nat} (h : ValidFrameAt m n o L) :
    ∃ P, P.length = L ∧ Holds m (o + 3) P := by
  obtain ⟨-, -, -, B, hB, hHolds, -⟩ := h
  exact ⟨(B.drop 3).take L, by rw [List.length_take, List.length_drop]; omega, hHolds.slice 3 L⟩

/-- A length of a frame inside the buffer is held exactly by FRAME_LEN. -/
theorem ValidFrameAt.toNat_ofNat_length {m : Memory} {n o L : Nat} (h : ValidFrameAt m n o L) (hn : n ≤ Config.bufCap) :
    (BitVec.ofNat 32 L).toNat = L := by
  obtain ⟨hfits, -⟩ := h
  exact toNat_ofNat_of_le_bufCap (by omega)

/-- Settles O20: the payload is cut out of the bytes the attempt accepted. -/
theorem scanstepEmitsAValidFrame : Obligations.ScanstepEmitsAValidFrame := by
  intro s L hlen hv
  obtain ⟨r, he⟩ := exec_scanstep_of_validFrameAt hlen hv
  obtain ⟨P, hP, hHolds⟩ := hv.payload
  exact ⟨r, _, P, rfl, he, framePayload_of_holds (by rw [hP]; exact hv.toNat_ofNat_length hlen) hHolds, hP, hHolds⟩

/-! ### Built frames (30_encoding.md R68, R69) -/

/-- The masked length of a header is the length it was built for, whatever its reserved bits are (30_encoding.md R72). -/
theorem payloadLen_headerOf (rsv : BitVec 6) (L : BitVec 10) :
    payloadLen (rsv ++ L.extractLsb' 8 2) (L.extractLsb' 0 8) = L.toNat := by
  have hhigh : (rsv ++ L.extractLsb' 8 2).toNat = rsv.toNat * 4 + L.toNat / 256 % 4 := by
    rw [BitVec.toNat_append, ← Nat.shiftLeft_add_eq_or_of_lt (BitVec.isLt _), Nat.shiftLeft_eq, BitVec.extractLsb'_toNat,
      Nat.shiftRight_eq_div_pow]
  have hlow : (L.extractLsb' 0 8).toNat = L.toNat % 256 := by
    rw [BitVec.extractLsb'_toNat, Nat.shiftRight_zero]
  have := L.isLt
  rw [payloadLen_eq, hhigh, hlow]
  omega

theorem length_frameOf (rsv : BitVec 6) (P : List Byte) : (frameOf rsv P).length = P.length + 6 := by
  simp [frameOf, headerOf, trailerOf]

theorem frameOf_payload (rsv : BitVec 6) (P : List Byte) : ((frameOf rsv P).drop 3).take P.length = P := by
  simp [frameOf, headerOf]

/-- A built frame is a valid frame: its length is masked back, and its trailer leaves residue 0 (41_checksum.md R96). -/
theorem validFrameAt_of_holds_frameOf {m : Memory} {n o : Nat} {rsv : BitVec 6} {P : List Byte} (hP : P.length ≤ 1023)
    (hn : o + (P.length + 6) ≤ n) (h : Holds m o (frameOf rsv P)) : ValidFrameAt m n o P.length := by
  refine ⟨hn, h.byteAt (k := 0) rfl, ⟨_, _, h.byteAt (k := 1) rfl, h.byteAt (k := 2) rfl, ?_⟩,
    frameOf rsv P, length_frameOf rsv P, h, appendedChecksumLeavesZeroResidue _⟩
  rw [payloadLen_headerOf, BitVec.toNat_ofNat, Nat.mod_eq_of_lt (by omega)]

/-- Settles O25: a built frame is a valid one, and its bytes from the fourth on are the payload. -/
theorem builtFrameIsEmittedWithItsPayload : Obligations.BuiltFrameIsEmittedWithItsPayload := by
  intro s rsv P hP hlen hn h
  have hv := validFrameAt_of_holds_frameOf hP hn h
  obtain ⟨r, he⟩ := exec_scanstep_of_validFrameAt hlen hv
  have hpayload : Holds s.buf (s.cursor.toNat + 3) P := frameOf_payload rsv P ▸ h.slice 3 P.length
  refine ⟨_, he, rfl, rfl, rfl, ?_, framePayload_of_holds (hv.toNat_ofNat_length hlen) hpayload⟩
  rw [← ofNat_toNat_add, toNat_ofNat_of_le_bufCap (hn.trans hlen)]

end Sys2Proof.Machine
end

section
/-! Both scanner commands: how far the cursor moves, what a frame they emit is, and that they complete over written bytes
(43_scanner.md R115 to R118). -/

namespace Sys2Proof.Machine

/-- An attempt that emits a frame emits a valid one, at its own offset (43_scanner.md R118). -/
theorem scanAttempt_frame_valid {m : Memory} {n o p L : Nat} {a : Attempt} (h : scanAttempt m n o = .ok a)
    (hf : a.frame = some (p, L)) : p = o ∧ ValidFrameAt m n o L := by
  obtain ⟨-, rfl⟩ | ⟨-, b0, h0, ⟨-, rfl⟩ | ⟨-, -, rfl⟩ | ⟨rfl, -, b1, b2, h1, h2, ⟨-, rfl⟩ | ⟨hfits, B, hB, rfl⟩⟩⟩ :=
    scanAttempt_cases h
  case inr.inr.inr.inr =>
    obtain ⟨hlen, hbytes⟩ := (memRead_eq_some_iff _ _ _ _).1 hB
    obtain ⟨-, hj⟩ | ⟨hcrc, hj⟩ := judge_cases o (payloadLen b1 b2) B <;> rw [hj] at hf <;> cases hf
    exact ⟨rfl, hfits, h0, ⟨b1, b2, h1, h2, rfl⟩, B, hlen, fun k hk => hbytes k (hlen ▸ hk), hcrc⟩
  all_goals cases hf

/-- What the deciding attempt of a scanner command answers from cursor `o`: how far the cursor moves (43_scanner.md R117), and the
frame it emits on FRAME (R118). -/
structure ScanAnswer (m : Memory) (n o : Nat) (a : Attempt) : Prop where
  forward : o < n → o + 1 ≤ a.next ∧ a.next ≤ n
  stays : n ≤ o → a.next = o
  emits : a.out = .frame → ∃ p L, o ≤ p ∧ ValidFrameAt m n p L ∧ a.frame = some (p, L) ∧ a.next = p + (L + 6)

theorem scanAttempt_answer {m : Memory} {n o : Nat} {a : Attempt} (h : scanAttempt m n o = .ok a) : ScanAnswer m n o a := by
  obtain ⟨ho, hout, hnext, -⟩ | ⟨ho, hout, hnext, -⟩ | ⟨ho, -, L, -, hf, hnext, hle⟩ := scanAttempt_progress h
  · exact ⟨by omega, fun _ => hnext, fun e => nomatch hout.symm.trans e⟩
  · refine ⟨by omega, by omega, fun e => ?_⟩
    obtain hout | hout | hout := hout <;> cases hout.symm.trans e
  · exact ⟨by omega, by omega, fun _ => ⟨o, L, Nat.le_refl o, (scanAttempt_frame_valid h hf).2, hf, hnext⟩⟩

/-- What SCANNEXT's loop answers: END at the end of the buffer, or a valid frame ahead (43_scanner.md R116, R118). -/
theorem scanLoop_end_or_validFrame {m : Memory} {n o : Nat} {a : Attempt} (h : scanLoop m n (n - o) o = .ok a) :
    (a.out = .atEnd ∧ a.next = max o n ∧ a.frame = none) ∨
    (a.out = .frame ∧ ∃ p L, o ≤ p ∧ ValidFrameAt m n p L ∧ a.frame = some (p, L) ∧ a.next = p + (L + 6)) := by
  obtain hend | ⟨hout, p, L, hp, -, hf, hnext, -, z, hz, -, hzf⟩ := scanLoop_cases _ rfl h
  · exact .inl hend
  · exact .inr ⟨hout, p, L, hp, (scanAttempt_frame_valid hz hzf).2, hf, hnext⟩

theorem scanLoop_answer {m : Memory} {n o : Nat} {a : Attempt} (h : scanLoop m n (n - o) o = .ok a) : ScanAnswer m n o a := by
  obtain ⟨hout, hnext, -⟩ | ⟨-, p, L, hp, hv, hf, hnext⟩ := scanLoop_end_or_validFrame h
  · exact ⟨by omega, by omega, fun e => nomatch hout.symm.trans e⟩
  · have hfits := hv.1
    exact ⟨by omega, by omega, fun _ => ⟨p, L, hp, hv, hf, hnext⟩⟩

/-- Everything a scanner command that succeeds can leave behind. -/
theorem exec_scan_cases {s t : State} {i : Instr} (hi : i = .scanstep ∨ i = .scannext) (h : exec i s = .next t)
    (hok : t.err = .ok) : s.bufLen.toNat ≤ Config.bufCap ∧
      ∃ a, ScanAnswer s.buf s.bufLen.toNat s.cursor.toNat a ∧ t = finish .ok (applyAttempt a s) := by
  obtain rfl | rfl := hi
  · obtain ⟨-, he⟩ | ⟨hlen, a, ha, he⟩ | ⟨-, f, -, he⟩ := execScanstep_cases s <;> cases he.symm.trans h
    · cases hok
    · exact ⟨hlen, a, scanAttempt_answer ha, rfl⟩
  · obtain ⟨-, he⟩ | ⟨hlen, a, ha, he⟩ | ⟨-, f, -, he⟩ := execScannext_cases s <;> cases he.symm.trans h
    · cases hok
    · exact ⟨hlen, a, scanLoop_answer ha, rfl⟩

/-- Settles O26: a cursor that moves stays at or below BUF_LEN, so CURSOR holds it exactly. -/
theorem cursorMovesForwardWithinTheBuffer : Obligations.CursorMovesForwardWithinTheBuffer := by
  intro s t i hi h hok
  obtain ⟨hlen, a, ha, rfl⟩ := exec_scan_cases hi h hok
  rw [finish_cursor, applyAttempt_cursor]
  refine ⟨fun ho => ?_, fun ho => ?_⟩
  · have hnext := ha.forward ho
    rwa [toNat_ofNat_of_le_bufCap (by omega)]
  · rw [ha.stays ho, BitVec.ofNat_toNat, BitVec.setWidth_eq]

/-- Settles O27: the frame lies inside the buffer, so the registers hold its offset, its length and its end exactly. -/
theorem emittedFramesAreValid : Obligations.EmittedFramesAreValid := by
  intro s t i hi h hok hout
  obtain ⟨hlen, a, ha, rfl⟩ := exec_scan_cases hi h hok
  rw [finish_scanOut, applyAttempt_scanOut] at hout
  obtain ⟨p, L, hp, hv, hf, hnext⟩ := ha.emits hout
  have hfits := hv.1
  rw [applyAttempt_frame s hf, finish_frameOff, finish_frameLen, finish_cursor, hnext,
    toNat_ofNat_of_le_bufCap (k := p) (by omega), hv.toNat_ofNat_length hlen, toNat_ofNat_of_le_bufCap (by omega)]
  exact ⟨hp, hv, (Nat.add_assoc p L 6).symm⟩

/-! ### Attempts over written bytes (20_memory.md R49) -/

theorem Written.mono {m : Memory} {lo lo' hi : Nat} (h : Written m lo hi) (hle : lo ≤ lo') : Written m lo' hi :=
  fun a ha => h a (hle.trans ha)

theorem Written.byteAt_ne_none {m : Memory} {lo hi a : Nat} (h : Written m lo hi) (hlo : lo ≤ a) (hhi : a < hi) :
    m.byteAt a ≠ none := by
  obtain ⟨b, hb⟩ := h a hlo hhi
  simp [hb]

theorem scanAttempt_of_written {m : Memory} {n o : Nat} (hw : Written m o n) : ∃ a, scanAttempt m n o = .ok a := by
  cases h : scanAttempt m n o with
  | ok a => exact ⟨a, rfl⟩
  | error f =>
    obtain rfl := scanAttempt_fault h
    obtain ⟨ho, h0 | ⟨-, h3, h1 | h2 | ⟨b1, b2, -, -, hL, hB⟩⟩⟩ := (scanAttempt_error_iff m n o).1 h
    · exact absurd h0 (hw.byteAt_ne_none (by omega) (by omega))
    · exact absurd h1 (hw.byteAt_ne_none (by omega) (by omega))
    · exact absurd h2 (hw.byteAt_ne_none (by omega) (by omega))
    · obtain ⟨a, hlo, hhi, hnone⟩ := (memRead_eq_none_iff_range m o _).1 hB
      exact absurd hnone (hw.byteAt_ne_none (by omega) (by omega))

/-- An attempt after which SCANNEXT goes on moved by one and emitted no frame (43_scanner.md R117). -/
theorem scanAttempt_skip {m : Memory} {n o : Nat} {a : Attempt} (h : scanAttempt m n o = .ok a)
    (hgo : ¬ (a.out = .frame ∨ a.out = .atEnd)) : o < n ∧ a.next = o + 1 ∧ a.frame = none := by
  obtain ⟨-, hout, -⟩ | ⟨ho, -, hnext, hf⟩ | ⟨-, hout, -⟩ := scanAttempt_progress h
  · exact absurd (.inr hout) hgo
  · exact ⟨ho, hnext, hf⟩
  · exact absurd (.inl hout) hgo

/-! ### One turn of SCANNEXT's loop, by what its attempt answers (43_scanner.md R116) -/

theorem scanLoop_of_stop {m : Memory} {n o : Nat} {a : Attempt} (h : scanAttempt m n o = .ok a)
    (hstop : a.out = .frame ∨ a.out = .atEnd) : scanLoop m n (n - o) o = .ok a := by
  rw [scanLoop_eq, h]
  exact if_pos hstop

theorem scanLoop_of_fault {m : Memory} {n o : Nat} {f : Fault} (h : scanAttempt m n o = .error f) :
    scanLoop m n (n - o) o = .error f := by
  rw [scanLoop_eq, h]

/-- After a skip the rest of the loop decides, and the skip's checksum is left where the rest computed none. -/
theorem scanLoop_of_skip {m : Memory} {n o : Nat} {a : Attempt} (h : scanAttempt m n o = .ok a)
    (hgo : ¬ (a.out = .frame ∨ a.out = .atEnd)) : scanLoop m n (n - o) o =
      (scanLoop m n (n - (o + 1)) (o + 1)).map fun z => { z with crc := z.crc <|> a.crc } := by
  obtain ⟨-, hnext, -⟩ := scanAttempt_skip h hgo
  rw [scanLoop_eq, h, ← hnext]
  simp only [if_neg hgo]
  cases scanLoop m n (n - a.next) a.next <;> rfl

theorem scanLoop_of_written {m : Memory} {n o : Nat} (hw : Written m o n) : ∃ a, scanLoop m n (n - o) o = .ok a := by
  obtain ⟨a, ha⟩ := scanAttempt_of_written hw
  by_cases hstop : a.out = .frame ∨ a.out = .atEnd
  · exact ⟨a, scanLoop_of_stop ha hstop⟩
  · obtain ⟨ho, -⟩ := scanAttempt_skip ha hstop
    obtain ⟨z, hz⟩ := scanLoop_of_written (hw.mono (Nat.le_succ o))
    exact ⟨_, by rw [scanLoop_of_skip ha hstop, hz]; rfl⟩
termination_by n - o

/-! ### Completion of both commands -/

theorem exec_scannext_of_loop {s : State} {a : Attempt} (hlen : s.bufLen.toNat ≤ Config.bufCap)
    (h : scanLoop s.buf s.bufLen.toNat (s.bufLen.toNat - s.cursor.toNat) s.cursor.toNat = .ok a) :
    exec .scannext s = .next (finish .ok (applyAttempt a s)) := by
  rw [exec, execScannext, withBufLen_pass hlen, h]
  rfl

/-- Settles O28: over written bytes neither the attempt nor the loop faults. -/
theorem scanOverWrittenBytesCompletes : Obligations.ScanOverWrittenBytesCompletes := by
  rintro s i (rfl | rfl) hlen hw
  · obtain ⟨a, ha⟩ := scanAttempt_of_written hw
    exact ⟨_, exec_scanstep_of_attempt hlen ha, rfl, rfl⟩
  · obtain ⟨a, ha⟩ := scanLoop_of_written hw
    exact ⟨_, exec_scannext_of_loop hlen ha, rfl, rfl⟩

end Sys2Proof.Machine
end

section
/-! SCANNEXT: it is SCANSTEP repeated, and it finds the first valid frame or the end of the buffer (43_scanner.md R116, R119,
R120). -/

namespace Sys2Proof.Machine

/-! ### SCANNEXT as repeated SCANSTEP -/

theorem exec_scannext_of_fault {s : State} {f : Fault} (hlen : s.bufLen.toNat ≤ Config.bufCap)
    (h : scanAttempt s.buf s.bufLen.toNat s.cursor.toNat = .error f) : exec .scannext s = .fault f := by
  rw [exec, execScannext, withBufLen_pass hlen, scanLoop_of_fault h]
  rfl

/-- A skip writes no field that the next attempt does not write again, but for a checksum the next attempt does not compute. -/
theorem applyAttempt_after_skip {a : Attempt} (hf : a.frame = none) (z : Attempt) (s : State) :
    finish .ok (applyAttempt z (finish .ok (applyAttempt a s))) =
      finish .ok (applyAttempt { z with crc := z.crc <|> a.crc } s) := by
  obtain ⟨out, next, frame, crc⟩ := z
  rw [applyAttempt_skip s hf]
  cases frame <;> cases crc <;> rfl

/-- After a skip SCANNEXT does what it does from the state the skip leaves behind. -/
theorem exec_scannext_of_skip {s : State} {a : Attempt} (hlen : s.bufLen.toNat ≤ Config.bufCap)
    (h : scanAttempt s.buf s.bufLen.toNat s.cursor.toNat = .ok a) (hgo : ¬ (a.out = .frame ∨ a.out = .atEnd)) :
    exec .scannext s = exec .scannext (finish .ok (applyAttempt a s)) := by
  obtain ⟨ho, hnext, hf⟩ := scanAttempt_skip h hgo
  have hcursor : (BitVec.ofNat 32 (s.cursor.toNat + 1)).toNat = s.cursor.toNat + 1 := toNat_ofNat_of_le_bufCap (by omega)
  rw [exec, exec, execScannext, execScannext, withBufLen_pass hlen, withBufLen_pass (by simpa using hlen),
    scanLoop_of_skip h hgo]
  simp only [finish_buf, applyAttempt_buf, finish_bufLen, applyAttempt_bufLen, finish_cursor, applyAttempt_cursor, hnext, hcursor]
  cases scanLoop s.buf s.bufLen.toNat (s.bufLen.toNat - (s.cursor.toNat + 1)) (s.cursor.toNat + 1) with
  | error f => rfl
  | ok z => exact congrArg Host.Outcome.next (applyAttempt_after_skip hf z s).symm

/-- With BUF_LEN > BUF_CAP every SCANSTEP of the chain is the same refusal. -/
theorem scanstepChain_of_badWindow (k : Nat) {s : State} (h : Config.bufCap < s.bufLen.toNat) :
    scanstepChain k s = .next (finish .badWindow s) := by
  have hstep : exec .scanstep s = .next (finish .badWindow s) := longBufLenIsRefused s .scanstep h (by simp)
  induction k generalizing s with
  | zero => exact hstep
  | succ k ih =>
    simp only [scanstepChain, hstep]
    split
    · rfl
    · exact ih (s := finish .badWindow s) h (longBufLenIsRefused _ .scanstep h (by simp))

/-- With BUF_LEN <= BUF_CAP SCANNEXT is the chain of as many further SCANSTEPs as bytes are left. -/
theorem exec_scannext_eq_scanstepChain (k : Nat) : ∀ {s : State}, s.bufLen.toNat ≤ Config.bufCap →
    s.bufLen.toNat - s.cursor.toNat = k → exec .scannext s = scanstepChain k s := by
  induction k with
  | zero =>
    intro s hlen hk
    have ha := scanAttempt_of_end (m := s.buf) (Nat.le_of_sub_eq_zero hk)
    rw [scanstepChain, exec_scanstep_of_attempt hlen ha, exec_scannext_of_loop hlen (scanLoop_of_stop ha (.inr rfl))]
  | succ k ih =>
    intro s hlen hk
    rw [scanstepChain]
    cases ha : scanAttempt s.buf s.bufLen.toNat s.cursor.toNat with
    | error f => rw [exec_scannext_of_fault hlen ha, (exec_scanstep_fault_iff s f).2 ⟨hlen, ha⟩]
    | ok a =>
      simp only [exec_scanstep_of_attempt hlen ha, finish_scanOut, applyAttempt_scanOut]
      split
      · next hstop => exact exec_scannext_of_loop hlen (scanLoop_of_stop ha hstop)
      · next hgo =>
        obtain ⟨ho, hnext, -⟩ := scanAttempt_skip ha hgo
        rw [exec_scannext_of_skip hlen ha hgo]
        refine ih (by simpa using hlen) ?_
        rw [finish_bufLen, applyAttempt_bufLen, finish_cursor, applyAttempt_cursor, hnext,
          toNat_ofNat_of_le_bufCap (by omega)]
        omega

/-- Settles O21, by induction on the bytes left. -/
theorem scannextIsRepeatedScanstep : Obligations.ScannextIsRepeatedScanstep := by
  intro s
  by_cases hlen : s.bufLen.toNat ≤ Config.bufCap
  · exact exec_scannext_eq_scanstepChain _ hlen rfl
  · have hlong := Nat.lt_of_not_le hlen
    rw [scanstepChain_of_badWindow _ hlong]
    exact longBufLenIsRefused s .scannext hlong (by simp)

/-! ### The first valid frame, or the end -/

/-- The loop passes over no valid frame. -/
theorem scanLoop_frame_le {m : Memory} {n o q K : Nat} {a : Attempt} (h : scanLoop m n (n - o) o = .ok a) (hq : o ≤ q)
    (hv : ValidFrameAt m n q K) : ∃ p L, a.frame = some (p, L) ∧ p ≤ q := by
  have hfits := hv.1
  cases hz : scanAttempt m n o with
  | error f => cases (scanLoop_of_fault hz).symm.trans h
  | ok z =>
    by_cases hstop : z.out = .frame ∨ z.out = .atEnd
    · cases (scanLoop_of_stop hz hstop).symm.trans h
      obtain ⟨ho, -⟩ | ⟨-, hout, -⟩ | ⟨-, -, L, -, hf, -⟩ := scanAttempt_progress hz
      · omega
      · obtain e | e | e := hout <;> simp [e] at hstop
      · exact ⟨o, L, hf, hq⟩
    · have hne : o ≠ q := by
        rintro rfl
        obtain ⟨r, hr⟩ := scanAttempt_of_validFrameAt hv
        cases hz.symm.trans hr
        exact hstop (.inl rfl)
      rw [scanLoop_of_skip hz hstop] at h
      cases hy : scanLoop m n (n - (o + 1)) (o + 1) with
      | error f => rw [hy] at h; cases h
      | ok y =>
        rw [hy] at h
        cases h
        exact scanLoop_frame_le (a := y) hy (by omega) hv
termination_by n - o

/-- The header fixes the length of a frame. -/
theorem ValidFrameAt.length_unique {m : Memory} {n o L K : Nat} (h : ValidFrameAt m n o L) (h' : ValidFrameAt m n o K) :
    L = K := by
  obtain ⟨-, -, ⟨b1, b2, h1, h2, rfl⟩, -⟩ := h
  obtain ⟨-, -, ⟨c1, c2, h1', h2', rfl⟩, -⟩ := h'
  cases h1.symm.trans h1'
  cases h2.symm.trans h2'
  rfl

/-- Settles O22: the loop emits a valid frame, and neither before `p`, where none stands, nor after it. -/
theorem scannextEmitsTheFirstValidFrame : Obligations.ScannextEmitsTheFirstValidFrame := by
  intro s p L hlen hw hp hv hfirst
  obtain ⟨a, ha⟩ := scanLoop_of_written hw
  obtain ⟨p', L', hf, hle⟩ := scanLoop_frame_le ha hp hv
  obtain ⟨-, -, hnone⟩ | ⟨hout, p'', L'', hp', hv', hf', hnext⟩ := scanLoop_end_or_validFrame ha
  · cases hf.symm.trans hnone
  · cases hf.symm.trans hf'
    obtain rfl : p' = p := hle.eq_of_not_lt fun hlt => hfirst p' L' hp' hlt hv'
    obtain rfl := hv.length_unique hv'
    rw [exec_scannext_of_loop hlen ha, applyAttempt_frame s hf, hout, hnext, ← Nat.add_assoc]
    exact ⟨_, rfl⟩

/-- Settles O23: the loop emits no frame that is not a valid one ahead, so it ends. -/
theorem scannextWithoutAFrameEnds : Obligations.ScannextWithoutAFrameEnds := by
  intro s hlen hw hno
  obtain ⟨a, ha⟩ := scanLoop_of_written hw
  obtain ⟨hout, hnext, hf⟩ | ⟨-, p, L, hp, hv, -⟩ := scanLoop_end_or_validFrame ha
  · rw [exec_scannext_of_loop hlen ha, applyAttempt_skip s hf, hout, hnext]
    exact ⟨_, rfl⟩
  · exact absurd hv (hno p L hp)

/-- With no preamble ahead every attempt is SKIP_PREAMBLE or END, and none computes a checksum (43_scanner.md R120). -/
theorem scanLoop_of_noPreamble {m : Memory} {n o : Nat}
    (h : ∀ a, o ≤ a → a < n → ∃ b, m.byteAt a = some b ∧ b ≠ Config.preamble) :
    scanLoop m n (n - o) o = .ok { out := .atEnd, next := max o n, frame := none, crc := none } := by
  by_cases ho : o < n
  · obtain ⟨b, hb, hne⟩ := h o (Nat.le_refl o) ho
    rw [scanLoop_of_skip (scanAttempt_of_wrongPreamble ho hb hne) (by simp),
      scanLoop_of_noPreamble fun a ha => h a (by omega), Nat.max_eq_right ho, Nat.max_eq_right ho.le]
    rfl
  · have hend := Nat.le_of_not_lt ho
    rw [scanLoop_of_stop (scanAttempt_of_end hend) (.inr rfl), Nat.max_eq_left hend]
termination_by n - o

/-- Settles O24: the loop reaches END with no checksum, so the CRC shift register stays too. -/
theorem noPreambleNoFrame : Obligations.NoPreambleNoFrame := by
  intro s hlen h
  rw [exec_scannext_of_loop hlen (scanLoop_of_noPreamble h), applyAttempt_skip s rfl]
  rfl

end Sys2Proof.Machine
end

section
/-! Errors in one byte of a frame (43_scanner.md R121). -/

namespace Sys2Proof.Machine

/-- Settles O40: sequences that differ in one byte have different checksums, so not both are 0. -/
theorem oneByteChangeIsDetected : Obligations.OneByteChangeIsDetected := fun A C _ _ hbc hzero hzero' =>
  crc24q_ne_of_byte_ne A C hbc (hzero.trans hzero'.symm)

end Sys2Proof.Machine
end

section
/-! Errors are precise (60_exceptions.md R129). -/

namespace Sys2Proof.Machine

/-- A command writes a register besides STATUS only on its way to `finish(OK)`, so one that fails does nothing but finish. -/
theorem exec_eq_finish_of_err {i : Instr} {s t : State} (h : exec i s = .next t) (herr : t.err ≠ .ok) :
    t = finish t.err s := by
  obtain ⟨c, rfl⟩ | ⟨-, B, rfl⟩ | ⟨-, v, rfl⟩ | ⟨-, rfl⟩ | ⟨-, -, a, -, rfl⟩ := exec_cases h
  case inl => rfl
  all_goals exact absurd rfl herr

/-- Settles O29: a decoded command that fails and an illegal word both do nothing but `finish`, which writes ERR and BUSY. -/
theorem failingCommandChangesOnlyErrAndBusy : Obligations.FailingCommandChangesOnlyErrAndBusy := by
  intro s t h herr
  cases hd : decode s.latch with
  | ok i => exact exec_eq_finish_of_err ((engineStep_of_decode hd).symm.trans h) herr
  | error e =>
    cases (engineStep_of_illegal hd).symm.trans h
    rfl

end Sys2Proof.Machine
end

section
/-! Reset at any time (70_reset_and_hazards.md R139, R140). -/

namespace Sys2Proof.Machine

/-- Reset leaves no byte of BUF written (70_reset_and_hazards.md R140). -/
theorem byteAt_resetBlock (s : State) (a : Nat) : (resetBlock s).buf.byteAt a = none := by
  rw [resetBlock_buf]
  exact Memory.byteAt_nil a

/-- Settles O54: the reset transaction checks nothing, a pending command included, and answers `resetBlock`. -/
theorem resetAtAnyTime : Obligations.ResetAtAnyTime := fun s =>
  ⟨resetBlock s, rfl, rfl, byteAt_resetBlock s⟩

end Sys2Proof.Machine
end

section
/-! Host accesses while a command is pending (70_reset_and_hazards.md R144; log entry 9). -/

namespace Sys2Proof.Machine

/-- An access reaches a register exactly when it is 32 bits wide and at that register's own offset (10_state.md R37). -/
theorem regOf_eq_ok_iff (off bits : Nat) (r : Reg) : regOf off bits = .ok r ↔ off = regOffset r ∧ bits = 32 := by
  rw [← regAt_eq_some_iff]
  unfold regOf
  by_cases hb : bits = 32
  · cases regAt off <;> simp [hb]
  · simp [hb]

theorem hostBufWrite_of_pending {s : State} (hp : s.pending = true) (a : Nat) (v : Byte) :
    hostBufWrite a v s = .error .hostHazard := by simp [hostBufWrite, hp]

theorem hostBufRead_of_pending {s : State} (hp : s.pending = true) (a : Nat) :
    hostBufRead a s = .error .hostHazard := by simp [hostBufRead, hp]

/-- A register read that does not reach STATUS is a hazard, whether it reaches another register or none. -/
theorem hostRegRead_of_pending {s : State} {off bits : Nat} (hp : s.pending = true) (h : regOf off bits ≠ .ok .status) :
    hostRegRead off bits s = .error .hostHazard := by
  cases hreg : regOf off bits with
  | ok r =>
    have hr : r ≠ .status := by
      rintro rfl
      exact h hreg
    simp [hostRegRead, hreg, hp, hr]
  | error f => simp [hostRegRead, hreg, hp]

/-- Settles O51: only a 32-bit read at offset 0x04 reaches STATUS, and the word it answers has PENDING as its BUSY bit. -/
theorem busyHazard : Obligations.BusyHazard := fun s hp =>
  ⟨hostRegWrite_of_pending hp, hostBufWrite_of_pending hp, hostBufRead_of_pending hp,
    fun off bits h => hostRegRead_of_pending hp (mt (regOf_eq_ok_iff off bits .status).1 h),
    hostRegRead_status s, (busyField_statusWord s).trans hp⟩

end Sys2Proof.Machine
end
